-- ==== Sys2Proof/Word.lean ====
section
/-! DEFINITION. The word types of TMPC and of the sensor register file: spec/00_scope.md rules R7 and R8
(bit 0 is the least significant bit of every word). -/

namespace Sys2Proof

/-- One byte on the sensor bus, and a sensor register index (R7, R44). -/
abbrev Byte := BitVec 8

/-- A 16-bit word: a temperature count, a CONFIG container, a sensor register, a ROM entry (R7). -/
abbrev Half := BitVec 16

/-- A 32-bit word: RES, a Q16.16 temperature, the field A of a command (R7, R12). -/
abbrev Word := BitVec 32

/-- A 64-bit command word CMD[63:0] (R58). -/
abbrev Cmd := BitVec 64

end Sys2Proof
end

