-- ==== Sys2Proof/Config.lean ====
section
/-! DEFINITION. What an implementation or an environment fixes: the named PARAMETERs of spec/00_scope.md rule R7
(`LAT_ROM`, `SENSOR_REG_ADDR`, `SENSOR_CONFIG_RESET`, `POLL_MS`, `TIMEOUT_MS`) as plain data, and the names of the
sensor registers (10_state.md rule R39).

A parameter is an ARGUMENT of the model: `Machine.State` carries one `Params`, no step changes it, and a statement over
every state is a statement for every value of every parameter.  The default values stand in Machine/Params.lean. -/

namespace Sys2Proof

/-- The ten named sensor registers (R39). -/
inductive SensorReg where
  | temp
  | config
  | tHighLimit
  | tLowLimit
  | eepromUnlock
  | eeprom1
  | eeprom2
  | tempOffset
  | eeprom3
  | deviceId
deriving DecidableEq, Repr

/-- One row of the latency ROM, by averaging setting 0 to 3 (R90). -/
structure LatRow where
  a0 : Half
  a1 : Half
  a2 : Half
  a3 : Half
deriving DecidableEq, Repr

/-- The parameter `LAT_ROM`: exactly the 23 cells that rule R90 marks G (not given by the source).
Row 0 lacks its first cell, and rows 4 and 7 are wholly the source's (S cells), so they are not here. -/
structure LatRom where
  r0a1 : Half
  r0a2 : Half
  r0a3 : Half
  row1 : LatRow
  row2 : LatRow
  row3 : LatRow
  row5 : LatRow
  row6 : LatRow
deriving DecidableEq, Repr

/-- The parameter `SENSOR_REG_ADDR`: the register index of each named sensor register (R44, decision D25). -/
structure SensorRegAddr where
  temp : Byte
  config : Byte
  tHighLimit : Byte
  tLowLimit : Byte
  eepromUnlock : Byte
  eeprom1 : Byte
  eeprom2 : Byte
  tempOffset : Byte
  eeprom3 : Byte
  deviceId : Byte
deriving DecidableEq, Repr

/-- The named parameters of the model (R7). -/
structure Params where
  /-- `LAT_ROM`, the ROM cells the source does not give (R90). -/
  latRom : LatRom
  /-- `SENSOR_REG_ADDR` (R44). -/
  sensorRegAddr : SensorRegAddr
  /-- `SENSOR_CONFIG_RESET`, CONFIG after power-up and after a soft reset (R38). -/
  sensorConfigReset : Half
  /-- `POLL_MS`, the Host's soft-reset poll interval in ms (R114). -/
  pollMs : Nat
  /-- `TIMEOUT_MS`, the Host's soft-reset timeout in ms (R114). -/
  timeoutMs : Nat
deriving DecidableEq, Repr

end Sys2Proof
end

