-- ==== Sys2Proof/Machine/Params.lean ====
section
/-! DEFINITION. The latency ROM (spec/42_latency_rom.md rule R90), the sensor register addresses (20_memory.md rule
R44) and the default values of the named parameters (00_scope.md rule R7). -/

namespace Sys2Proof.Machine

/-! ## The latency ROM -/

/-- The four cells of a row, by averaging setting (R90). -/
def rowCells (r : LatRow) : List Half := [r.a0, r.a1, r.a2, r.a3]

/-- ROM[0] to ROM[31], in units of 0.5 ms (R89, R90).  The nine S cells, (0,0), (4,*) and (7,*), are the source's and
are constants here; the 23 G cells are the parameter `LAT_ROM`. -/
def romTable (l : LatRom) : List Half :=
  [31, l.r0a1, l.r0a2, l.r0a3] ++ rowCells l.row1 ++ rowCells l.row2 ++ rowCells l.row3
    ++ [2000, 2000, 2000, 2000] ++ rowCells l.row5 ++ rowCells l.row6 ++ [32000, 32000, 32000, 32000]

/-- `ROM[i]` for the 5-bit index `{cycle[2:0], avg[1:0]}` (R42).  The table has 32 entries, so the default of
`getD` is never reached. -/
def romRead (l : LatRom) (i : BitVec 5) : Half := (romTable l).getD i.toNat 0

/-- The default of the parameter `LAT_ROM`: the G cells as rule R90 prints them. -/
def latRomDefault : LatRom where
  r0a1 := 250
  r0a2 := 1000
  r0a3 := 2000
  row1 := ⟨250, 250, 1000, 2000⟩
  row2 := ⟨500, 500, 1000, 2000⟩
  row3 := ⟨1000, 1000, 1000, 2000⟩
  row5 := ⟨8000, 8000, 8000, 8000⟩
  row6 := ⟨16000, 16000, 16000, 16000⟩

/-! ## Sensor register addresses -/

/-- The named registers in the source's order (R39). -/
def sensorRegs : List SensorReg :=
  [.temp, .config, .tHighLimit, .tLowLimit, .eepromUnlock, .eeprom1, .eeprom2, .tempOffset, .eeprom3, .deviceId]

/-- `SENSOR_REG_ADDR[r]` (R44). -/
def regAddr (m : SensorRegAddr) : SensorReg → Byte
  | .temp => m.temp
  | .config => m.config
  | .tHighLimit => m.tHighLimit
  | .tLowLimit => m.tLowLimit
  | .eepromUnlock => m.eepromUnlock
  | .eeprom1 => m.eeprom1
  | .eeprom2 => m.eeprom2
  | .tempOffset => m.tempOffset
  | .eeprom3 => m.eeprom3
  | .deviceId => m.deviceId

/-- The register a bus address selects: the first named register with that index. -/
def regAt (m : SensorRegAddr) (a : Byte) : Option SensorReg := sensorRegs.find? (fun r => regAddr m r == a)

/-- What rule R44 says of `SENSOR_REG_ADDR`: the named registers lie in 0x00 to 0x0F; and two registers have two
addresses (DEDUCED: an index names one fixed-address register, R16; notes/assumptions/5.md). -/
def addrMapOk (m : SensorRegAddr) : Bool :=
  sensorRegs.all (fun r => (regAddr m r).toNat ≤ 0x0F) &&
    sensorRegs.all (fun r => sensorRegs.all (fun r' => r == r' || regAddr m r != regAddr m r'))

/-- PRESUMED (notes/assumptions/5.md): the general-knowledge map of 93_implementation_defined.md G5, which decision
D25 names as a possible default.  No rule and no statement depends on these values. -/
def sensorRegAddrDefault : SensorRegAddr where
  temp := 0x00
  config := 0x01
  tHighLimit := 0x02
  tLowLimit := 0x03
  eepromUnlock := 0x04
  eeprom1 := 0x05
  eeprom2 := 0x06
  tempOffset := 0x07
  eeprom3 := 0x08
  deviceId := 0x0F

/-- PRESUMED (notes/assumptions/6.md): the general-knowledge value of 93_implementation_defined.md G6.  No rule and no
statement depends on it. -/
def sensorConfigResetDefault : Half := 0x0220

/-- The parameters at their defaults; POLL_MS = 100 and TIMEOUT_MS = 2000 are rule R7's. -/
def paramsDefault : Params where
  latRom := latRomDefault
  sensorRegAddr := sensorRegAddrDefault
  sensorConfigReset := sensorConfigResetDefault
  pollMs := 100
  timeoutMs := 2000

end Sys2Proof.Machine
end

