-- ==== Sys2Proof/Machine/State.lean ====
section
/-! DEFINITION. The state as plain data, the reasons a step can stop, and the state after reset.

Three agents make the machine (spec/00_scope.md rule R6), and each has its part of `State`: TMPC's five registers
(10_state.md rules R18 to R23), the Sensor's register file (R28, R39), and what the Host holds while it runs one of the
spec's own sequences (41_bitfields.md rule R88, 70_reset_and_hazards.md rule R114).  The step is one deterministic
function, so WHICH agent moves next, what the Host drives on TMPC's input ports and every value the source leaves open
(a "draw") stand in the state as data, in the list `agenda` (notes/assumptions/1.md and 8.md). -/

namespace Sys2Proof.Machine

/-! ## TMPC -/

/-- TMPC's architectural state, exactly five registers (R18).  It has no general registers (R25), no program counter
(R26) and no memory (R43); the latency ROM is constant and stands in the parameters. -/
structure Tmpc where
  /-- RES[31:0], the result register (R19). -/
  res : Word
  /-- ERR, the last accepted command failed (R20). -/
  err : Bool
  /-- ERRS, some command failed since reset (R21). -/
  errs : Bool
  /-- ECODE[3:0], the error code of the last accepted command (R22). -/
  ecode : BitVec 4
  /-- DONE, the last edge accepted a command (R23). -/
  done : Bool
deriving DecidableEq, Repr

/-- TMPC's input ports as sampled at one rising edge of CLK (R59, R110). -/
structure Pins where
  rst : Bool
  cmdValid : Bool
  cmd : Cmd
deriving DecidableEq, Repr

/-! ## The Sensor -/

/-- The sensor register file, ten 16-bit registers (R39); CONFIG's layout is rule R29's. -/
structure Sensor where
  temp : Half
  config : Half
  tHighLimit : Half
  tLowLimit : Half
  eepromUnlock : Half
  eeprom1 : Half
  eeprom2 : Half
  tempOffset : Half
  eeprom3 : Half
  deviceId : Half
deriving DecidableEq, Repr

/-- A step the Sensor may take between host transactions (R52). -/
inductive SensorEvent where
  /-- A limit crossing sets HIGH_ALERT. -/
  | highAlert
  /-- A limit crossing sets LOW_ALERT. -/
  | lowAlert
  /-- DATA_READY changes. -/
  | dataReady (b : Bool)
  /-- EEPROM_BUSY changes. -/
  | eepromBusy (b : Bool)
  /-- TEMP is updated with a new measurement. -/
  | temp (v : Half)
deriving DecidableEq, Repr

/-! ## The bus between the Host and the Sensor -/

/-- A transaction as the transport port takes it: `read(register_address, byte_count)` or a write of a payload
(R15, R47). -/
inductive BusTx where
  | read (addr : Byte) (byteCount : Nat)
  | write (addr : Byte) (payload : List Byte)
deriving DecidableEq, Repr

/-- Whether a transaction completes.  Either primitive may fail with a transport error, which TMPC never sees (R15,
R109); the source does not say whether the Sensor was reached, so both cases exist. -/
inductive BusFate where
  | completes
  | failsUnreached
  | failsReached
deriving DecidableEq, Repr

/-- What the environment settles for one turn of a Host. -/
structure Draw where
  /-- The value drawn for each sensor register, used ONLY where the source leaves a bit or a register open (decisions
  D26, D27, D34, D36). -/
  regs : Sensor
  /-- Whether a bus transaction of this turn completes. -/
  fate : BusFate
  /-- How much of the Host's time passed since its last turn, in ms (R114's `now`). -/
  elapsed : Nat
deriving DecidableEq, Repr

/-! ## The Host -/

/-- One step of a Host sequence (R88, R114). -/
inductive HostOp where
  /-- One edge with CMD_VALID = 0 (`IDLE`, R68). -/
  | idle
  /-- One edge with RST = 1 (R112). -/
  | reset
  /-- Present a command word at one edge (R59). -/
  | present (c : Cmd)
  /-- Present a command word whose A[15:0] is the word w last read from the Sensor (R88). -/
  | presentOnWord (c : Cmd)
  /-- `w <- SensorRead(r)` (R15). -/
  | readReg (r : SensorReg)
  /-- `SensorWrite(r, v)` (R15). -/
  | writeReg (r : SensorReg) (v : Half)
  /-- `SensorWrite(r, RES[15:0])`, if the command before it succeeded (R88). -/
  | writeResult (r : SensorReg)
  /-- A transaction by address and length (R44, R47). -/
  | bus (tx : BusTx)
  /-- `deadline <- now + TIMEOUT_MS` (R114). -/
  | startDeadline
  /-- The test at the end of R114's loop body: success, TimeoutError, or wait POLL_MS and poll again. -/
  | pollCheck
deriving DecidableEq, Repr

/-- How the Host's last sequence that reports an outcome ended (R109, R114). -/
inductive Verdict where
  | pending
  | softResetDone
  | timeoutError
  | transportError
deriving DecidableEq, Repr

/-- What the Host holds. -/
structure HostAgent where
  /-- The steps it has yet to take, first one first. -/
  todo : List HostOp
  /-- w, the word its last SensorRead returned. -/
  w : Half
  /-- Its clock, in ms (R114). -/
  now : Nat
  /-- The deadline of the soft-reset poll, in ms (R114). -/
  deadline : Nat
  verdict : Verdict
deriving DecidableEq, Repr

/-- Who moves next. -/
inductive Turn where
  /-- One rising edge of CLK with these inputs (R115). -/
  | edge (p : Pins)
  /-- The Host takes the next step of its sequence. -/
  | host (d : Draw)
  /-- Another Host makes a transaction on the same Sensor (R56, R107, R123). -/
  | otherHost (tx : BusTx) (d : Draw)
  /-- The Sensor takes an environment step (R52). -/
  | sensor (e : SensorEvent)
deriving DecidableEq, Repr

/-! ## The whole state -/

structure State where
  tmpc : Tmpc
  sensor : Sensor
  host : HostAgent
  /-- The moves to come, first one first; when it is empty the clock runs on and the Host presents nothing. -/
  agenda : List Turn
  /-- The named parameters (R7); no step changes them. -/
  params : Params
deriving DecidableEq, Repr

/-- Faults: the machine stops at an access the spec says cannot exist. -/
inductive Fault where
  /-- Raised by a sensor bus transaction (`transact`) whose address is above 0x0F: a sensor register index is 0x00 to
  0x0F (R7, R44).  Safe: the model stops where a bus would answer in a way the spec does not give.  TMPC itself raises
  no fault: every failure of a command is a next state (R102). -/
  | sensorAddress
deriving DecidableEq, Repr

/-- Refusals: steps the spec tells a model to refuse. -/
inductive Refusal where
  /-- Raised by `exec` for an instruction that has no meaning yet, by its mnemonic.  Safe.  No arm of `exec` raises
  it. -/
  | notModelled (mnemonic : String)
  /-- Raised by `transact` for a transaction of other than two bytes: R47 "A transaction of another length is not
  defined by the source; a model refuses it" (93 U24).  Safe. -/
  | transferLength
  /-- Raised by `transact` for an index in 0x00 to 0x0F that is no named register's (R44; 93 U23 "refuse").  Safe. -/
  | unnamedSensorRegister
deriving DecidableEq, Repr

/-! ## Reset -/

/-- TMPC after an edge with RST = 1 (R110). -/
def Tmpc.reset : Tmpc := { res := 0, err := false, errs := false, ecode := 0, done := false }

/-- The Sensor after power-up, before any transaction.  CONFIG is `SENSOR_CONFIG_RESET` (R38) and DEVICE_ID is 0x0117
(R39).  The source gives no power-up value for the other eight (R40, 91 N18): PRESUMED, those of the family whose address
map the model takes as its default (notes/assumptions/7.md), and zero for the three EEPROM registers whose content the
family leaves to each part (DESIGN CHOICE, the same entry). -/
def Sensor.powerUp (p : Params) : Sensor where
  temp := 0x8000
  config := p.sensorConfigReset
  tHighLimit := 0x6000
  tLowLimit := 0x8000
  eepromUnlock := 0
  eeprom1 := 0
  eeprom2 := 0
  tempOffset := 0
  eeprom3 := 0
  deviceId := 0x0117

/-- A Host that has done nothing yet (DESIGN CHOICE, notes/assumptions/7.md: the spec gives the Host no start values). -/
def HostAgent.start : HostAgent := { todo := [], w := 0, now := 0, deadline := 0, verdict := .pending }

/-- Power-up followed by one edge with RST = 1 (R110, R112), parameters at their defaults, nothing scheduled. -/
def State.reset : State where
  tmpc := Tmpc.reset
  sensor := Sensor.powerUp paramsDefault
  host := HostAgent.start
  agenda := []
  params := paramsDefault

end Sys2Proof.Machine
end

