-- ==== Sys2Proof/Machine/Flags.lean ====
section
/-! DEFINITION. The error codes (spec/60_exceptions.md rule R98), the flag writes of a success, a failure and an idle
edge (R101 to R103), and the output ports (10_state.md rules R19 and R24). -/

namespace Sys2Proof.Machine

/-- The causes of failure (R98). -/
inductive ErrCode where
  | illegalOp
  | rsvd
  | range
  | geometry
  | valueWide
  | badField
  | readOnly
  | latIndex
deriving DecidableEq, Repr

/-- The number written to ECODE for each cause; 0 is OK (R98). -/
def ErrCode.code : ErrCode → BitVec 4
  | .illegalOp => 1
  | .rsvd => 2
  | .range => 3
  | .geometry => 4
  | .valueWide => 5
  | .badField => 6
  | .readOnly => 7
  | .latIndex => 8

/-- Flags of an accepted command that succeeds: ERR, ECODE and DONE written, ERRS kept (R101). -/
def Tmpc.flagSuccess (t : Tmpc) : Tmpc := { t with err := false, ecode := 0, done := true }

/-- Flags of an accepted command that fails: ERR and ERRS set, the code recorded, DONE set (R102). -/
def Tmpc.flagFailure (e : ErrCode) (t : Tmpc) : Tmpc :=
  { t with err := true, errs := true, ecode := e.code, done := true }

/-- An idle edge writes DONE alone (R103). -/
def Tmpc.flagIdle (t : Tmpc) : Tmpc := { t with done := false }

/-- The output port RES_O (R19). -/
def State.resO (s : State) : Word := s.tmpc.res

/-- STAT_O = {DONE, ERRS, ERR, 0, ECODE} (R24). -/
def Tmpc.statO (t : Tmpc) : BitVec 8 :=
  BitVec.ofBool t.done ++ BitVec.ofBool t.errs ++ BitVec.ofBool t.err ++ 0#1 ++ t.ecode

/-- The output port STAT_O. -/
def State.statO (s : State) : BitVec 8 := s.tmpc.statO

end Sys2Proof.Machine
end

