-- ==== Sys2Proof/Syntax.lean ====
section
/-! DEFINITION. The commands of TMPC-1 as syntax: one constructor per row of spec/opcode_table.json (30_encoding.md
rules R58 to R64).

Every bit of the 64-bit word other than OP has a place in its constructor.  The bits that rule R60 calls reserved are
held too, under the name of the part of the word they are (`aHi` = A[31:16], `b` = B, `p` = P, `pHi` = the top bits of
P): a command with a reserved bit set is a command, it is selected by OP alone (R66), and it fails with RSVD when it is
executed (R65).  WellFormed.lean says which terms have all reserved bits clear. -/

namespace Sys2Proof

inductive Instr where
  /-- OP 0x1, `CNT2C count` (R73). -/
  | cnt2c (count : Half) (aHi : Half) (b : Half) (p : BitVec 12)
  /-- OP 0x2, `CNT2F count` (R74). -/
  | cnt2f (count : Half) (aHi : Half) (b : Half) (p : BitVec 12)
  /-- OP 0x3, `C2CNT cin` (R72). -/
  | c2cnt (cin : Word) (b : Half) (p : BitVec 12)
  /-- OP 0x4, `PACK container, value, msb, width` (R79). -/
  | pack (container : Half) (value : Half) (msb : BitVec 4) (width : BitVec 5) (aHi : Half) (pHi : BitVec 3)
  /-- OP 0x5, `UNPACK container, msb, width` (R80). -/
  | unpack (container : Half) (msb : BitVec 4) (width : BitVec 5) (aHi : Half) (b : Half) (pHi : BitVec 3)
  /-- OP 0x6, `GETF container, fid` (R83). -/
  | getf (container : Half) (fid : BitVec 4) (aHi : Half) (b : Half) (pHi : BitVec 8)
  /-- OP 0x7, `SETF container, value, fid` (R84). -/
  | setf (container : Half) (value : Half) (fid : BitVec 4) (aHi : Half) (pHi : BitVec 8)
  /-- OP 0x8, `LAT cycle, avg` (R91). -/
  | lat (cycle : Word) (avg : Half) (p : BitVec 12)
deriving DecidableEq, Repr

end Sys2Proof
end

