-- ==== Sys2Proof/WellFormed.lean ====
section
/-! DEFINITION. Which commands are well formed: those whose reserved fields (spec/30_encoding.md rule R60) are all zero.
The operand fields need no check here, because their types are exactly the widths of rule R60; what their VALUES must
satisfy (a legal geometry, a value that fits its field, an index in range) is checked when the command executes
(rule R68's last paragraph).

The machine itself uses the RSVD_MASK test of rule R65 on the word; the obligation `ReservedBitsFailWithRsvd` states that
the two agree. -/

namespace Sys2Proof

/-- No reserved bit of the command is set (R60, R65). -/
def Instr.wellFormed : Instr → Bool
  | .cnt2c _ aHi b p => aHi == 0 && b == 0 && p == 0
  | .cnt2f _ aHi b p => aHi == 0 && b == 0 && p == 0
  | .c2cnt _ b p => b == 0 && p == 0
  | .pack _ _ _ _ aHi pHi => aHi == 0 && pHi == 0
  | .unpack _ _ _ aHi b pHi => aHi == 0 && b == 0 && pHi == 0
  | .getf _ _ aHi b pHi => aHi == 0 && b == 0 && pHi == 0
  | .setf _ _ _ aHi pHi => aHi == 0 && pHi == 0
  | .lat _ _ p => p == 0

end Sys2Proof
end

