-- ==== Sys2Proof/Decode.lean ====
section
/-! DEFINITION. The command word: its fields (spec/30_encoding.md rule R58), the decoder, total on every 64-bit word
(R66), the encoder (R67), the opcode numbers (R64) and the reserved-bit masks (R65).  The port carries a whole word
(20_memory.md rule R46), so no byte order enters. -/

namespace Sys2Proof

/-! ## The four fields of a command word (R58) -/

/-- OP = CMD[63:60]. -/
def opField (c : Cmd) : BitVec 4 := c.extractLsb' 60 4

/-- P = CMD[59:48]. -/
def pField (c : Cmd) : BitVec 12 := c.extractLsb' 48 12

/-- B = CMD[47:32]. -/
def bField (c : Cmd) : Half := c.extractLsb' 32 16

/-- A = CMD[31:0]. -/
def aField (c : Cmd) : Word := c.extractLsb' 0 32

/-- A[15:0]: a count, a container or a CONFIG word (R60, R63). -/
def aLo (a : Word) : Half := a.extractLsb' 0 16

/-- A[31:16], reserved for every command but C2CNT and LAT (R60). -/
def aHi (a : Word) : Half := a.extractLsb' 16 16

/-- P[3:0]: MSB of PACK and UNPACK (R61), FID of GETF and SETF (R62). -/
def pLow (p : BitVec 12) : BitVec 4 := p.extractLsb' 0 4

/-- P[8:4]: WID of PACK and UNPACK (R61). -/
def pWidth (p : BitVec 12) : BitVec 5 := p.extractLsb' 4 5

/-- P[11:9], reserved for PACK and UNPACK (R61). -/
def pHi3 (p : BitVec 12) : BitVec 3 := p.extractLsb' 9 3

/-- P[11:4], reserved for GETF and SETF (R62). -/
def pHi8 (p : BitVec 12) : BitVec 8 := p.extractLsb' 4 8

/-- A command word from its four fields (R58, R67): OP in the top four bits, A in the low 32. -/
def enc (op : BitVec 4) (p : BitVec 12) (b : Half) (a : Word) : Cmd := op ++ p ++ b ++ a

/-! ## The decoder -/

/-- Why a word is no command: its OP is 0x0 or 0x9 to 0xF (R64). -/
inductive DecodeError where
  | illegalOp (op : BitVec 4)
deriving DecidableEq, Repr

/-- Decode a 64-bit word.  OP alone selects the command (R66), and every other bit goes to its field. -/
def decode (c : Cmd) : Except DecodeError Instr :=
  let p := pField c
  let b := bField c
  let a := aField c
  match (opField c).toNat with
  | 1 => .ok (.cnt2c (aLo a) (aHi a) b p)
  | 2 => .ok (.cnt2f (aLo a) (aHi a) b p)
  | 3 => .ok (.c2cnt a b p)
  | 4 => .ok (.pack (aLo a) b (pLow p) (pWidth p) (aHi a) (pHi3 p))
  | 5 => .ok (.unpack (aLo a) (pLow p) (pWidth p) (aHi a) b (pHi3 p))
  | 6 => .ok (.getf (aLo a) (pLow p) (aHi a) b (pHi8 p))
  | 7 => .ok (.setf (aLo a) b (pLow p) (aHi a) (pHi8 p))
  | 8 => .ok (.lat a b p)
  | _ => .error (.illegalOp (opField c))

/-! ## The encoder -/

/-- The opcode of each command (R64). -/
def Instr.opcode : Instr → BitVec 4
  | .cnt2c .. => 0x1
  | .cnt2f .. => 0x2
  | .c2cnt .. => 0x3
  | .pack .. => 0x4
  | .unpack .. => 0x5
  | .getf .. => 0x6
  | .setf .. => 0x7
  | .lat .. => 0x8

/-- The field P of each command (R60 to R62). -/
def Instr.pBits : Instr → BitVec 12
  | .cnt2c _ _ _ p => p
  | .cnt2f _ _ _ p => p
  | .c2cnt _ _ p => p
  | .pack _ _ msb width _ pHi => pHi ++ width ++ msb
  | .unpack _ msb width _ _ pHi => pHi ++ width ++ msb
  | .getf _ fid _ _ pHi => pHi ++ fid
  | .setf _ _ fid _ pHi => pHi ++ fid
  | .lat _ _ p => p

/-- The field B of each command (R60). -/
def Instr.bBits : Instr → Half
  | .cnt2c _ _ b _ => b
  | .cnt2f _ _ b _ => b
  | .c2cnt _ b _ => b
  | .pack _ value _ _ _ _ => value
  | .unpack _ _ _ _ b _ => b
  | .getf _ _ _ b _ => b
  | .setf _ value _ _ _ => value
  | .lat _ avg _ => avg

/-- The field A of each command (R60). -/
def Instr.aBits : Instr → Word
  | .cnt2c count aHi _ _ => aHi ++ count
  | .cnt2f count aHi _ _ => aHi ++ count
  | .c2cnt cin _ _ => cin
  | .pack container _ _ _ aHi _ => aHi ++ container
  | .unpack container _ _ aHi _ _ => aHi ++ container
  | .getf container _ aHi _ _ => aHi ++ container
  | .setf container _ _ aHi _ => aHi ++ container
  | .lat cycle _ _ => cycle

/-- The word of a command (R67). -/
def encode (i : Instr) : Cmd := enc i.opcode i.pBits i.bBits i.aBits

/-! ## Reserved bits -/

/-- RSVD_MASK(OP) over CMD[63:0] (R65).  An illegal OP has no row in rule R65's table and no reserved bits. -/
def rsvdMask (op : BitVec 4) : Cmd :=
  match op.toNat with
  | 1 => 0x0FFFFFFFFFFF0000
  | 2 => 0x0FFFFFFFFFFF0000
  | 3 => 0x0FFFFFFF00000000
  | 4 => 0x0E000000FFFF0000
  | 5 => 0x0E00FFFFFFFF0000
  | 6 => 0x0FF0FFFFFFFF0000
  | 7 => 0x0FF00000FFFF0000
  | 8 => 0x0FFF000000000000
  | _ => 0

/-- `(CMD AND RSVD_MASK(OP)) != 0`, the first check of every command's rule (R65, R72 to R74, R79, R80, R83, R84,
R91), on the word of the command. -/
def reservedSet (i : Instr) : Bool := encode i &&& rsvdMask i.opcode != 0

/-! ## The host's view of the opcode table -/

/-- The word whose low `nbits` bits are those of `w` and whose other bits are zero: a TMPC command is ONE 64-bit word,
so the opcode table's bit numbers are the word's own. -/
def tableWord (nbits w : Nat) : Cmd := BitVec.ofNat 64 (w % 2 ^ nbits)

/-- The instruction the decoder reads from an opcode-table word. -/
def decodeTableWord (nbits w : Nat) : Option Instr :=
  match decode (tableWord nbits w) with
  | .ok i => some i
  | .error _ => none

end Sys2Proof
end

