-- ==== Sys2Proof/Machine/Primitives.lean ====
section
/-! DEFINITION. The integer and bit-field primitives of spec/00_scope.md rules R10 and R11, and the wire byte order of
20_memory.md rule R45. -/

namespace Sys2Proof.Machine

/-- `fdiv(a, b)`: division rounding toward minus infinity (R11). -/
def fdiv (a b : Int) : Int := Int.fdiv a b

/-- `rhe(n, k)`: n / 2^k rounded to the nearest integer, ties to the even integer (R11). -/
def rhe (n : Int) (k : Nat) : Int :=
  let q := fdiv n (2 ^ k)
  let r := n - q * 2 ^ k
  if 2 * r > 2 ^ k then q + 1
  else if 2 * r < 2 ^ k then q
  else q + q % 2

/-- `word32(x)`: the 32-bit two's-complement encoding (R10). -/
def word32 (x : Int) : Word := BitVec.ofInt 32 x

/-- `zext_32(v)` of a 16-bit word (R10). -/
def zext32 (v : Half) : Word := v.setWidth 32

/-- `fmask(msb, w)`: ones exactly in bits msb down to msb - w + 1 (R11). -/
def fmask (msb w : Nat) : Half := BitVec.ofNat 16 ((2 ^ w - 1) * 2 ^ (msb + 1 - w))

/-- `extract(c, msb, w)`: the field's value, right-aligned (R11).  The division by 2^(msb - w + 1) is exact floor
division of naturals. -/
def extractField (c : Half) (msb w : Nat) : Half := BitVec.ofNat 16 ((c &&& fmask msb w).toNat / 2 ^ (msb + 1 - w))

/-- `insert(c, msb, w, v)`: the field replaced by v, every other bit kept (R11). -/
def insertField (c : Half) (msb w v : Nat) : Half :=
  (c &&& ~~~fmask msb w) ||| BitVec.ofNat 16 (v * 2 ^ (msb + 1 - w))

/-- The bytes of a register word on the wire, most significant first (R45). -/
def wireBytes (v : Half) : List Byte := [v.extractLsb' 8 8, v.extractLsb' 0 8]

/-- The word `{b0, b1}` of two received bytes (R45). -/
def wireWord (b0 b1 : Byte) : Half := b0 ++ b1

end Sys2Proof.Machine
end

