-- ==== Sys2Proof/Machine/Operands.lean ====
section
/-! DEFINITION. How each operand value is formed from the command's bits (spec/30_encoding.md rule R63): every operand
form of every command is here, and there is no other. -/

namespace Sys2Proof.Machine

/-- A count: `s16(A[15:0])`. -/
def countOperand (count : Half) : Int := count.toInt

/-- A Q16.16 Celsius temperature: `s32(A[31:0])` units of 2^-16 degree. -/
def cinOperand (cin : Word) : Int := cin.toInt

/-- The value of PACK and SETF: `u(B[15:0])`. -/
def valueOperand (value : Half) : Nat := value.toNat

/-- `u(P[3:0])`, the field's top bit. -/
def msbOperand (msb : BitVec 4) : Nat := msb.toNat

/-- `u(P[8:4])`, the field's width. -/
def widthOperand (width : BitVec 5) : Nat := width.toNat

/-- `u(P[3:0])`, a CONFIG field id. -/
def fidOperand (fid : BitVec 4) : Nat := fid.toNat

/-- LAT's cycle: `u(A[31:0])`, all 32 bits. -/
def cycleOperand (cycle : Word) : Nat := cycle.toNat

/-- LAT's avg: `u(B[15:0])`, all 16 bits. -/
def avgOperand (avg : Half) : Nat := avg.toNat

/-- The Host puts a 16-bit word into A[15:0] of a command word and leaves every other bit as it is (R88). -/
def onWord (c : Cmd) (w : Half) : Cmd := enc (opField c) (pField c) (bField c) (aHi (aField c) ++ w)

end Sys2Proof.Machine
end

