-- ==== Sys2Proof/Machine/Ops.lean ====
section
/-! DEFINITION. The shared operations over TMPC's registers: what a command's rule returns (spec/00_scope.md rule R14),
its commit at the accepted edge (60_exceptions.md rules R101, R102), and the two edges that accept no command (R103,
70_reset_and_hazards.md rule R110).

TAKING AN EXCEPTION is `Tmpc.fail`, rule R102's "trap entry" of TMPC: it records the code and the flags, keeps RES, and
sends control nowhere, because TMPC has no control flow.  There is NO RETURN from it to model: rule R104 says TMPC has
no trap handler and no return-from-trap, and the next command simply overwrites ERR and ECODE. -/

namespace Sys2Proof.Machine

/-- What the function `exec(CMD)` of a command's rule returns (R14). -/
inductive Result where
  | ok (v : Word)
  | fail (e : ErrCode)
deriving DecidableEq, Repr

/-- Commit of a success (R101). -/
def Tmpc.succeed (v : Word) (t : Tmpc) : Tmpc := { t.flagSuccess with res := v }

/-- Commit of a failure, the trap entry of TMPC (R102): RES is unchanged. -/
def Tmpc.fail (e : ErrCode) (t : Tmpc) : Tmpc := t.flagFailure e

/-- Commit of a result at an accepted edge. -/
def Tmpc.commit (r : Result) (t : Tmpc) : Tmpc :=
  match r with
  | .ok v => t.succeed v
  | .fail e => t.fail e

/-- The state after an accepted edge whose command returned `r`: TMPC commits it and nothing else changes (R95). -/
def State.commit (s : State) (r : Result) : State := { s with tmpc := s.tmpc.commit r }

/-- A meaning's answer: the commit is always a next state (R95, R102). -/
def commitNext (r : Result) (s : State) : Host.Outcome State Fault Refusal := .next (s.commit r)

/-- The state after an idle edge (R103). -/
def State.idleEdge (s : State) : State := { s with tmpc := s.tmpc.flagIdle }

/-- The state after an edge with RST = 1: TMPC's five registers are cleared, and the ROM and the Sensor are unaffected
(R110). -/
def State.resetEdge (s : State) : State := { s with tmpc := Tmpc.reset }

/-- The first check of every command's rule: a set reserved bit fails with RSVD and nothing after it is evaluated
(R65, R99). -/
def unlessReserved (i : Instr) (r : Result) : Result := if reservedSet i then .fail .rsvd else r

end Sys2Proof.Machine
end

