-- ==== Sys2Proof/Machine/BitFields.lean ====
section
/-! DEFINITION. The bit-field commands and the CONFIG decoder (spec/41_bitfields.md rules R78 to R87): PACK, UNPACK, the
field table, GETF, SETF and the parallel decoder `decodeConfig`. -/

namespace Sys2Proof.Machine

/-! ## Field geometry -/

/-- A geometry is legal when `1 <= width <= msb + 1` (R78). -/
def geometryOk (msb w : Nat) : Bool := 1 ≤ w && w ≤ msb + 1

/-- Insertion with the check that the value fits, shared by PACK and SETF (R79, R84). -/
def insertChecked (c : Half) (msb w v : Nat) : Result :=
  if v ≥ 2 ^ w then .fail .valueWide else .ok (zext32 (insertField c msb w v))

/-- PACK: GEOMETRY, then VALUE_WIDE, then the container with the field replaced (R79). -/
def packResult (container value : Half) (msb : BitVec 4) (width : BitVec 5) : Result :=
  let m := msbOperand msb
  let w := widthOperand width
  if geometryOk m w then insertChecked container m w (valueOperand value) else .fail .geometry

/-- UNPACK: GEOMETRY, then the field's value (R80). -/
def unpackResult (container : Half) (msb : BitVec 4) (width : BitVec 5) : Result :=
  let m := msbOperand msb
  let w := widthOperand width
  if geometryOk m w then .ok (zext32 (extractField container m w)) else .fail .geometry

/-! ## The CONFIG fields -/

/-- A row of the field table (R81). -/
structure Field where
  msb : Nat
  width : Nat
  writable : Bool
deriving DecidableEq, Repr

/-- `FIELD(fid)`; fids 12 to 15 are undefined (R81). -/
def fieldTable (fid : Nat) : Option Field :=
  match fid with
  | 0 => some ⟨15, 1, false⟩   -- HIGH_ALERT
  | 1 => some ⟨14, 1, false⟩   -- LOW_ALERT
  | 2 => some ⟨13, 1, false⟩   -- DATA_READY
  | 3 => some ⟨12, 1, false⟩   -- EEPROM_BUSY
  | 4 => some ⟨11, 2, true⟩    -- MOD
  | 5 => some ⟨9, 3, true⟩     -- CONV
  | 6 => some ⟨6, 2, true⟩     -- AVG
  | 7 => some ⟨4, 1, true⟩     -- TNA
  | 8 => some ⟨3, 1, true⟩     -- POL
  | 9 => some ⟨2, 1, true⟩     -- DRALERT
  | 10 => some ⟨1, 1, true⟩    -- SOFT_RESET
  | 11 => some ⟨15, 2, false⟩  -- ALERTS
  | _ => none

/-- GETF: BAD_FIELD, then the named field of the word (R83). -/
def getfResult (container : Half) (fid : BitVec 4) : Result :=
  match fieldTable (fidOperand fid) with
  | none => .fail .badField
  | some f => .ok (zext32 (extractField container f.msb f.width))

/-- SETF: BAD_FIELD, then READ_ONLY, then VALUE_WIDE, then the word with the field replaced (R84). -/
def setfResult (container value : Half) (fid : BitVec 4) : Result :=
  match fieldTable (fidOperand fid) with
  | none => .fail .badField
  | some f =>
    if f.writable then insertChecked container f.msb f.width (valueOperand value) else .fail .readOnly

/-! ## The parallel decoder -/

/-- Every field of a CONFIG word at once (R82). -/
structure ConfigFields where
  highAlert : Bool
  lowAlert : Bool
  dataReady : Bool
  eepromBusy : Bool
  mod : BitVec 2
  conv : BitVec 3
  avg : BitVec 2
  tna : Bool
  pol : Bool
  dralert : Bool
  softReset : Bool
  unused : Bool
deriving DecidableEq, Repr

/-- `decodeConfig(c)`, total on every 16-bit word (R82, R29). -/
def decodeConfig (c : Half) : ConfigFields where
  highAlert := c.getLsbD 15
  lowAlert := c.getLsbD 14
  dataReady := c.getLsbD 13
  eepromBusy := c.getLsbD 12
  mod := c.extractLsb' 10 2
  conv := c.extractLsb' 7 3
  avg := c.extractLsb' 5 2
  tna := c.getLsbD 4
  pol := c.getLsbD 3
  dralert := c.getLsbD 2
  softReset := c.getLsbD 1
  unused := c.getLsbD 0

/-- The member of the record that a field id names, as a number; ALERTS is `{c[15], c[14]}` (R82, R83, R86). -/
def ConfigFields.member (f : ConfigFields) (fid : Nat) : Option Nat :=
  match fid with
  | 0 => some f.highAlert.toNat
  | 1 => some f.lowAlert.toNat
  | 2 => some f.dataReady.toNat
  | 3 => some f.eepromBusy.toNat
  | 4 => some f.mod.toNat
  | 5 => some f.conv.toNat
  | 6 => some f.avg.toNat
  | 7 => some f.tna.toNat
  | 8 => some f.pol.toNat
  | 9 => some f.dralert.toNat
  | 10 => some f.softReset.toNat
  | 11 => some (2 * f.highAlert.toNat + f.lowAlert.toNat)
  | _ => none

/-! ## The meanings -/

/-- The meaning of PACK (R79). -/
def execPack (container value : Half) (msb : BitVec 4) (width : BitVec 5) (aHi : Half) (pHi : BitVec 3) (s : State) :
    Host.Outcome State Fault Refusal :=
  commitNext (unlessReserved (.pack container value msb width aHi pHi) (packResult container value msb width)) s

/-- The meaning of UNPACK (R80). -/
def execUnpack (container : Half) (msb : BitVec 4) (width : BitVec 5) (aHi b : Half) (pHi : BitVec 3) (s : State) :
    Host.Outcome State Fault Refusal :=
  commitNext (unlessReserved (.unpack container msb width aHi b pHi) (unpackResult container msb width)) s

/-- The meaning of GETF (R83). -/
def execGetf (container : Half) (fid : BitVec 4) (aHi b : Half) (pHi : BitVec 8) (s : State) :
    Host.Outcome State Fault Refusal :=
  commitNext (unlessReserved (.getf container fid aHi b pHi) (getfResult container fid)) s

/-- The meaning of SETF (R84). -/
def execSetf (container value : Half) (fid : BitVec 4) (aHi : Half) (pHi : BitVec 8) (s : State) :
    Host.Outcome State Fault Refusal :=
  commitNext (unlessReserved (.setf container value fid aHi pHi) (setfResult container value fid)) s

end Sys2Proof.Machine
end

