-- ==== Sys2Proof/Machine/Latency.lean ====
section
/-! DEFINITION. LAT, the one command that reads the latency ROM (spec/42_latency_rom.md rule R91). -/

namespace Sys2Proof.Machine

/-- LAT: LAT_INDEX if cycle > 7 or avg > 3, over all 32 bits of A and all 16 of B, else `ROM[4 * cycle + avg]`
(R91). -/
def latResult (l : LatRom) (cycle : Word) (avg : Half) : Result :=
  let c := cycleOperand cycle
  let a := avgOperand avg
  if c > 7 ∨ a > 3 then .fail .latIndex else .ok (zext32 (romRead l (BitVec.ofNat 5 (4 * c + a))))

/-- The meaning of LAT (R91). -/
def execLat (cycle : Word) (avg : Half) (p : BitVec 12) (s : State) : Host.Outcome State Fault Refusal :=
  commitNext (unlessReserved (.lat cycle avg p) (latResult s.params.latRom cycle avg)) s

end Sys2Proof.Machine
end

