-- ==== Sys2Proof/Machine/Temperature.lean ====
section
/-! DEFINITION. The fixed-point temperature converter (spec/40_temperature.md rules R71 to R77): CNT2C, CNT2F and
C2CNT.  For each command, the value its rule returns once the reserved bits are known to be clear, and its meaning. -/

namespace Sys2Proof.Machine

/-- CNT2C: 512 n, exactly n / 128 degrees Celsius in Q16.16 (R73). -/
def cnt2cResult (count : Half) : Result := .ok (word32 (512 * countOperand count))

/-- CNT2F: 9n/640 + 32 degrees Fahrenheit rounded to the nearest 2^-16 (R74). -/
def cnt2fResult (count : Half) : Result := .ok (word32 (fdiv (4608 * countOperand count + 2) 5 + 2097152))

/-- C2CNT: cin / 512 rounded to the nearest count, ties to even; outside int16 it fails with RANGE (R72). -/
def c2cntResult (cin : Word) : Result :=
  let n := rhe (cinOperand cin) 9
  if n < -32768 ∨ n > 32767 then .fail .range else .ok (word32 n)

/-- The meaning of CNT2C (R73). -/
def execCnt2c (count aHi b : Half) (p : BitVec 12) (s : State) : Host.Outcome State Fault Refusal :=
  commitNext (unlessReserved (.cnt2c count aHi b p) (cnt2cResult count)) s

/-- The meaning of CNT2F (R74). -/
def execCnt2f (count aHi b : Half) (p : BitVec 12) (s : State) : Host.Outcome State Fault Refusal :=
  commitNext (unlessReserved (.cnt2f count aHi b p) (cnt2fResult count)) s

/-- The meaning of C2CNT (R72). -/
def execC2cnt (cin : Word) (b : Half) (p : BitVec 12) (s : State) : Host.Outcome State Fault Refusal :=
  commitNext (unlessReserved (.c2cnt cin b p) (c2cntResult cin)) s

end Sys2Proof.Machine
end

