-- ==== Sys2Proof/Machine/Dispatch.lean ====
section
/-! DEFINITION. One arm per command (spec/60_exceptions.md rule R94). -/

namespace Sys2Proof.Machine

def exec (i : Instr) (s : State) : Host.Outcome State Fault Refusal :=
  match i with
  | .cnt2c count aHi b p => Sys2Proof.Machine.execCnt2c count aHi b p s
  | .cnt2f count aHi b p => Sys2Proof.Machine.execCnt2f count aHi b p s
  | .c2cnt cin b p => Sys2Proof.Machine.execC2cnt cin b p s
  | .pack container value msb width aHi pHi => Sys2Proof.Machine.execPack container value msb width aHi pHi s
  | .unpack container msb width aHi b pHi => Sys2Proof.Machine.execUnpack container msb width aHi b pHi s
  | .getf container fid aHi b pHi => Sys2Proof.Machine.execGetf container fid aHi b pHi s
  | .setf container value fid aHi pHi => Sys2Proof.Machine.execSetf container value fid aHi pHi s
  | .lat cycle avg p => Sys2Proof.Machine.execLat cycle avg p s

end Sys2Proof.Machine
end

