-- ==== Sys2Proof/Machine/SensorOps.lean ====
section
/-! DEFINITION. The Sensor: its register file, the side effects of reads and writes, the soft reset, its environment
steps, and the bus transaction (spec/10_state.md rules R28 to R40, 20_memory.md rules R44 to R53, 70_reset_and_hazards.md
rule R113).

Where the source leaves a bit or a register open, its new value is taken from the turn's draw (notes/assumptions/8.md to
11.md). -/

namespace Sys2Proof.Machine

/-! ## The register file -/

/-- The content of a named register. -/
def Sensor.get (sn : Sensor) : SensorReg → Half
  | .temp => sn.temp
  | .config => sn.config
  | .tHighLimit => sn.tHighLimit
  | .tLowLimit => sn.tLowLimit
  | .eepromUnlock => sn.eepromUnlock
  | .eeprom1 => sn.eeprom1
  | .eeprom2 => sn.eeprom2
  | .tempOffset => sn.tempOffset
  | .eeprom3 => sn.eeprom3
  | .deviceId => sn.deviceId

/-- The bits of CONFIG that read/write mode fields occupy: MOD, CONV, AVG, TNA, POL, DRALERT, bits 11 down to 2
(R29). -/
def modeMask : Half := 0x0FFC

/-- HIGH_ALERT and LOW_ALERT, bits 15 and 14 (R29, R30). -/
def alertMask : Half := 0xC000

/-- The bits whose value at each CONFIG read is a draw: DATA_READY (R31), EEPROM_BUSY (R32), SOFT_RESET and bit 0
(R37). -/
def readDrawMask : Half := 0x3003

/-- The bits of `a` where `m` is 1 and of `b` where it is 0. -/
def select (m a b : Half) : Half := (a &&& m) ||| (b &&& ~~~m)

/-! ## Reads -/

/-- `SensorRead(CONFIG)`: the word read, then bits 15 and 14 cleared (R50), DATA_READY, EEPROM_BUSY and bits 1 and 0
being this read's draw (R31, R32, R37). -/
def Sensor.readConfig (sn : Sensor) (draw : Half) : Half × Sensor :=
  let cfg := select readDrawMask draw sn.config
  (cfg, { sn with config := cfg &&& ~~~alertMask })

/-- `SensorRead(r)`: a read of a register other than CONFIG has no side effect (R51). -/
def Sensor.readReg (sn : Sensor) (r : SensorReg) (draw : Sensor) : Half × Sensor :=
  match r with
  | .config => sn.readConfig draw.config
  | .temp => (sn.get .temp, sn)
  | .tHighLimit => (sn.get .tHighLimit, sn)
  | .tLowLimit => (sn.get .tLowLimit, sn)
  | .eepromUnlock => (sn.get .eepromUnlock, sn)
  | .eeprom1 => (sn.get .eeprom1, sn)
  | .eeprom2 => (sn.get .eeprom2, sn)
  | .tempOffset => (sn.get .tempOffset, sn)
  | .eeprom3 => (sn.get .eeprom3, sn)
  | .deviceId => (sn.get .deviceId, sn)

/-! ## Writes -/

/-- The soft reset a write of CONFIG with bit 1 set starts (R113): the limits take the counts of +192 and -256 degrees
Celsius (R40), CONFIG's mode fields those of `SENSOR_CONFIG_RESET`, and every other bit of CONFIG and every register
the source gives no value after reset takes its draw (R40, D24, D26, D34).  DEVICE_ID is constant. -/
def Sensor.softReset (sn : Sensor) (p : Params) (draw : Sensor) : Sensor where
  temp := draw.temp
  config := select modeMask p.sensorConfigReset draw.config
  tHighLimit := 0x6000
  tLowLimit := 0x8000
  eepromUnlock := draw.eepromUnlock
  eeprom1 := draw.eeprom1
  eeprom2 := draw.eeprom2
  tempOffset := draw.tempOffset
  eeprom3 := draw.eeprom3
  deviceId := sn.deviceId

/-- `SensorWrite(CONFIG, v)`: a soft reset if bit 1 is set, else the mode fields take v's bits; the resulting bits
15:12, 1 and 0 are draws (R53, R37). -/
def Sensor.writeConfig (sn : Sensor) (p : Params) (v : Half) (draw : Sensor) : Sensor :=
  if v.getLsbD 1 then sn.softReset p draw else { sn with config := select modeMask v draw.config }

/-- `SensorWrite(r, v)`.  The limits and TEMP_OFFSET have setters and take the word; TEMP and DEVICE_ID are read-only
(R44) and keep theirs; what a write of an EEPROM register leaves is not in the source and is drawn
(notes/assumptions/11.md). -/
def Sensor.writeReg (sn : Sensor) (p : Params) (r : SensorReg) (v : Half) (draw : Sensor) : Sensor :=
  match r with
  | .config => sn.writeConfig p v draw
  | .tHighLimit => { sn with tHighLimit := v }
  | .tLowLimit => { sn with tLowLimit := v }
  | .tempOffset => { sn with tempOffset := v }
  | .temp => sn
  | .deviceId => sn
  | .eepromUnlock => { sn with eepromUnlock := draw.eepromUnlock }
  | .eeprom1 => { sn with eeprom1 := draw.eeprom1 }
  | .eeprom2 => { sn with eeprom2 := draw.eeprom2 }
  | .eeprom3 => { sn with eeprom3 := draw.eeprom3 }

/-! ## Environment steps -/

/-- A step the Sensor takes by itself (R52). -/
def Sensor.event (sn : Sensor) (e : SensorEvent) : Sensor :=
  match e with
  | .highAlert => { sn with config := sn.config ||| 0x8000 }
  | .lowAlert => { sn with config := sn.config ||| 0x4000 }
  | .dataReady b => { sn with config := select 0x2000 (if b then 0x2000 else 0) sn.config }
  | .eepromBusy b => { sn with config := select 0x1000 (if b then 0x1000 else 0) sn.config }
  | .temp v => { sn with temp := v }

/-! ## The bus transaction -/

/-- The register address of a transaction. -/
def BusTx.addr : BusTx → Byte
  | .read a _ => a
  | .write a _ => a

/-- How many bytes a transaction moves. -/
def BusTx.byteCount : BusTx → Nat
  | .read _ n => n
  | .write _ payload => payload.length

/-- What the Sensor answers to a transaction. -/
inductive BusAnswer where
  /-- The bytes sent back, first one first (none for a write), and the Sensor after the transaction. -/
  | done (rx : List Byte) (sn : Sensor)
  | fault (f : Fault)
  | refused (r : Refusal)
deriving DecidableEq, Repr

/-- Resolve a bus address: an index above 0x0F does not exist, and one that no named register has is refused
(R44, 93 U23; notes/assumptions/12.md). -/
def resolveAddr (m : SensorRegAddr) (a : Byte) (k : SensorReg → BusAnswer) : BusAnswer :=
  if a.toNat > 0x0F then .fault .sensorAddress
  else match regAt m a with
    | none => .refused .unnamedSensorRegister
    | some r => k r

/-- One transaction of exactly two bytes, most significant byte first (R45, R47); another length is refused. -/
def transact (p : Params) (tx : BusTx) (draw : Sensor) (sn : Sensor) : BusAnswer :=
  match tx with
  | .read a n =>
    if n = 2 then
      resolveAddr p.sensorRegAddr a fun r =>
        .done (wireBytes (sn.readReg r draw).1) (sn.readReg r draw).2
    else .refused .transferLength
  | .write a [b0, b1] =>
    resolveAddr p.sensorRegAddr a fun r => .done [] (sn.writeReg p r (wireWord b0 b1) draw)
  | .write _ _ => .refused .transferLength

end Sys2Proof.Machine
end

