-- ==== Sys2Proof/Machine/HostOps.lean ====
section
/-! DEFINITION. One clock edge of TMPC (spec/70_reset_and_hazards.md rule R115), and the Host: its transactions and the
sequences the spec writes out for it, the getters and setters of 41_bitfields.md rule R88 and the soft-reset protocol of
70_reset_and_hazards.md rule R114. -/

namespace Sys2Proof.Machine

/-! ## One rising edge of CLK -/

/-- An accepted edge: the command in CMD is executed, or an illegal OP fails with ILLEGAL_OP whatever the other bits
hold (R64, R94). -/
def accept (c : Cmd) (s : State) : Host.Outcome State Fault Refusal :=
  match decode c with
  | .ok i => exec i s
  | .error _ => commitNext (.fail .illegalOp) s

/-- One rising edge: reset has priority over a command (R100), an edge with CMD_VALID = 1 accepts it (R59), and any
other edge is idle (R103). -/
def clockEdge (p : Pins) (s : State) : Host.Outcome State Fault Refusal :=
  if p.rst then .next s.resetEdge
  else if p.cmdValid then accept p.cmd s
  else .next s.idleEdge

/-! ## The Host's transactions -/

/-- A transaction failed: the error goes to the caller, nothing is retried (R97, R109), and the sequence ends
(notes/assumptions/13.md; for R114's TimeoutError 15.md). -/
def HostAgent.abort (h : HostAgent) (v : Verdict) : HostAgent := { h with todo := [], verdict := v }

/-- The Host keeps the word of a read; a write returns no bytes and leaves w as it was (R45). -/
def HostAgent.receive (h : HostAgent) (rx : List Byte) : HostAgent :=
  match rx with
  | [b0, b1] => { h with w := wireWord b0 b1 }
  | _ => h

/-- A transaction goes on only when the spec gives it an effect: one the Sensor has no answer to stops the machine,
whether or not it would have been reached (R47, 93 U23 and U24: a model admits no such step; notes/assumptions/12.md). -/
def onAnswer (a : BusAnswer) (k : List Byte → Sensor → State) : Host.Outcome State Fault Refusal :=
  match a with
  | .done rx sn => .next (k rx sn)
  | .fault f => .fault f
  | .refused r => .refused r

/-- A transaction of the Host: one indivisible, blocking round trip (R55, R56), which the draw may make fail (R15). -/
def busTurn (tx : BusTx) (d : Draw) (s : State) : Host.Outcome State Fault Refusal :=
  onAnswer (transact s.params tx d.regs s.sensor) fun rx sn =>
    match d.fate with
    | .completes => { s with sensor := sn, host := s.host.receive rx }
    | .failsReached => { s with sensor := sn, host := s.host.abort .transportError }
    | .failsUnreached => { s with host := s.host.abort .transportError }

/-- A transaction of another Host on the same Sensor (R56, R123): what it reads is not this Host's to see
(notes/assumptions/20.md). -/
def otherHostTurn (tx : BusTx) (d : Draw) (s : State) : Host.Outcome State Fault Refusal :=
  onAnswer (transact s.params tx d.regs s.sensor) fun _ sn =>
    match d.fate with
    | .completes => { s with sensor := sn }
    | .failsReached => { s with sensor := sn }
    | .failsUnreached => s

/-! ## The sequences -/

/-- A named getter: SensorRead(CONFIG), then GETF on the word read (R88). -/
def getterSeq (fid : BitVec 4) : List HostOp := [.readReg .config, .presentOnWord (encode (.getf 0 fid 0 0 0))]

/-- A named setter: SensorRead(CONFIG), SETF on the word read, then, if it succeeded, SensorWrite(CONFIG, RES[15:0])
(R88). -/
def setterSeq (fid : BitVec 4) (v : Half) : List HostOp :=
  [.readReg .config, .presentOnWord (encode (.setf 0 v fid 0 0)), .writeResult .config]

/-- `set_config(raw)`: one write, no TMPC command (R88, R124). -/
def rawConfigSeq (raw : Half) : List HostOp := [.writeReg .config raw]

/-- A limit or offset setter: C2CNT, then a write of RES[15:0] to the register (R88). -/
def countSetterSeq (r : SensorReg) (cin : Word) : List HostOp := [.present (encode (.c2cnt cin 0 0)), .writeResult r]

/-- A limit, offset or temperature getter in degrees Celsius: SensorRead, then CNT2C (R88). -/
def celsiusGetterSeq (r : SensorReg) : List HostOp := [.readReg r, .presentOnWord (encode (.cnt2c 0 0 0 0))]

/-- The same in degrees Fahrenheit: SensorRead, then CNT2F (R88). -/
def fahrenheitGetterSeq (r : SensorReg) : List HostOp := [.readReg r, .presentOnWord (encode (.cnt2f 0 0 0 0))]

/-- The body of R114's loop: SensorRead(CONFIG), GETF EEPROM_BUSY, and the test. -/
def pollSeq : List HostOp := getterSeq 3 ++ [.pollCheck]

/-- The soft-reset protocol: SET.SOFT_RESET by read-modify-write, start the deadline, poll (R114). -/
def softResetSeq : List HostOp := setterSeq 10 1 ++ [.startDeadline] ++ pollSeq

/-- R114's test: success if EEPROM_BUSY read 0, TimeoutError at the deadline (the session is left open), else wait
POLL_MS and poll again (notes/assumptions/15.md). -/
def pollCheck (p : Params) (res : Word) (h : HostAgent) : HostAgent :=
  if res.getLsbD 0 = false then { h with verdict := .softResetDone }
  else if h.now ≥ h.deadline then h.abort .timeoutError
  else { h with now := h.now + p.pollMs, todo := pollSeq ++ h.todo }

/-! ## A turn of the Host -/

/-- One step of a Host sequence, in a state whose `todo` no longer holds it. -/
def hostOp (op : HostOp) (d : Draw) (s : State) : Host.Outcome State Fault Refusal :=
  match op with
  | .idle => clockEdge ⟨false, false, 0⟩ s
  | .reset => clockEdge ⟨true, false, 0⟩ s
  | .present c => clockEdge ⟨false, true, c⟩ s
  | .presentOnWord c => clockEdge ⟨false, true, onWord c s.host.w⟩ s
  | .readReg r => busTurn (.read (regAddr s.params.sensorRegAddr r) 2) d s
  | .writeReg r v => busTurn (.write (regAddr s.params.sensorRegAddr r) (wireBytes v)) d s
  | .writeResult r =>
    if s.tmpc.err then .next s
    else busTurn (.write (regAddr s.params.sensorRegAddr r) (wireBytes (aLo s.tmpc.res))) d s
  | .bus tx => busTurn tx d s
  | .startDeadline =>
    .next { s with host := { s.host with deadline := s.host.now + s.params.timeoutMs, verdict := .pending } }
  | .pollCheck => .next { s with host := pollCheck s.params s.tmpc.res s.host }

/-- A turn of the Host: time passes, and the next step of its sequence is taken; a Host with nothing to do leaves
CMD_VALID at 0 for an edge. -/
def hostTurn (d : Draw) (s : State) : Host.Outcome State Fault Refusal :=
  match s.host.todo with
  | [] => .next { s with host := { s.host with now := s.host.now + d.elapsed } }.idleEdge
  | op :: ops => hostOp op d { s with host := { s.host with todo := ops, now := s.host.now + d.elapsed } }

/-! ## Any turn -/

/-- The move of one agent, in a state whose agenda no longer holds it.  Moves of the Sensor and of the bus take no clock
edge (notes/assumptions/14.md). -/
def takeTurn (t : Turn) (s : State) : Host.Outcome State Fault Refusal :=
  match t with
  | .edge p => clockEdge p s
  | .host d => hostTurn d s
  | .otherHost tx d => otherHostTurn tx d s
  | .sensor e => .next { s with sensor := s.sensor.event e }

/-- The next edge takes this word as an accepted command, ahead of everything scheduled. -/
def State.presentNext (s : State) (c : Cmd) : State := { s with agenda := .edge ⟨false, true, c⟩ :: s.agenda }

end Sys2Proof.Machine
end

