-- ==== Sys2Proof/Machine/Step.lean ====
section
/-! DEFINITION. One step of the machine (spec/70_reset_and_hazards.md rule R115): the next move of the agenda, or, when
nothing is scheduled, an idle edge (notes/assumptions/1.md). -/

namespace Sys2Proof.Machine

def step (s : State) : Host.Outcome State Fault Refusal :=
  match s.agenda with
  | [] => .next s.idleEdge
  | t :: rest => takeTurn t { s with agenda := rest }

/-- `s` with this command presented at the next edge (RST = 0, CMD_VALID = 1).  TMPC fetches nothing (R26): a program is
the sequence of commands the Host presents, so this stands where another machine would store an instruction at its
program counter (notes/assumptions/2.md). -/
def State.withFetchWord (s : State) (nbits w : Nat) : State := s.presentNext (tableWord nbits w)

end Sys2Proof.Machine
end

