-- ==== Sys2Proof/Machine/Assembler.lean ====
section
/-! DEFINITION. The assembly language (spec/30_encoding.md rules R68 to R70): a line as data, the assembler with the
operand checks of rule R68, the pseudo-instructions of rule R69, the disassembler of rule R70, and the written form of
each.  What rule R68 leaves open of the written form (spaces, letter case, number of hex digits) is chosen here
(notes/assumptions/18.md). -/

namespace Sys2Proof.Machine

/-! ## Lines -/

/-- A line of assembly with its operands as integers, one constructor per form of rule R68. -/
inductive AsmLine where
  | cnt2c (count : Int)
  | cnt2f (count : Int)
  | c2cnt (cin : Int)
  | pack (container value msb width : Int)
  | unpack (container msb width : Int)
  | getf (container fid : Int)
  | setf (container value fid : Int)
  | lat (cycle avg : Int)
  | idle
  | word (w : Int)
deriving DecidableEq, Repr

/-- An unsigned operand that fits its field, or the assembler's refusal of the line (R68). -/
def asmField (n : Nat) (v : Int) : Option (BitVec n) :=
  if 0 ≤ v ∧ v < 2 ^ n then some (BitVec.ofInt n v) else none

/-- A count: -32768..32767 or 0x0000..0xFFFF (R68). -/
def asmCount (v : Int) : Option Half :=
  if -32768 ≤ v ∧ v ≤ 65535 then some (BitVec.ofInt 16 v) else none

/-- A raw Q16.16 integer, signed or written as its 32-bit word (R68, 95_test_vectors.md section 2.1; DEDUCED,
notes/assumptions/18.md). -/
def asmCin (v : Int) : Option Word :=
  if -2147483648 ≤ v ∧ v ≤ 4294967295 then some (BitVec.ofInt 32 v) else none

/-- The pins of an edge that presents this command. -/
def asmCommand (i : Instr) : Pins := ⟨false, true, encode i⟩

/-- The edge a line stands for, or `none` where the assembler refuses the line (R68).  A value that fits its field but
fails the command's own check is assembled as written. -/
def assemble : AsmLine → Option Pins
  | .cnt2c count => (asmCount count).map fun c => asmCommand (.cnt2c c 0 0 0)
  | .cnt2f count => (asmCount count).map fun c => asmCommand (.cnt2f c 0 0 0)
  | .c2cnt cin => (asmCin cin).map fun c => asmCommand (.c2cnt c 0 0)
  | .pack container value msb width => do
    let c ← asmField 16 container
    let v ← asmField 16 value
    let m ← asmField 4 msb
    let w ← asmField 5 width
    some (asmCommand (.pack c v m w 0 0))
  | .unpack container msb width => do
    let c ← asmField 16 container
    let m ← asmField 4 msb
    let w ← asmField 5 width
    some (asmCommand (.unpack c m w 0 0 0))
  | .getf container fid => do
    let c ← asmField 16 container
    let f ← asmField 4 fid
    some (asmCommand (.getf c f 0 0 0))
  | .setf container value fid => do
    let c ← asmField 16 container
    let v ← asmField 16 value
    let f ← asmField 4 fid
    some (asmCommand (.setf c v f 0 0))
  | .lat cycle avg => do
    let c ← asmField 32 cycle
    let a ← asmField 16 avg
    some (asmCommand (.lat c a 0))
  | .idle => some ⟨false, false, 0⟩
  | .word w => (asmField 64 w).map fun c => ⟨false, true, c⟩

/-- The line of a word: a legal OP with no reserved bit set gives its command, every other word `.word` (R70;
notes/assumptions/18.md for a word with a reserved bit set, which no other line can write). -/
def disassemble (c : Cmd) : AsmLine :=
  match decode c with
  | .error _ => .word c.toNat
  | .ok i =>
    if reservedSet i then .word c.toNat
    else match i with
      | .cnt2c count _ _ _ => .cnt2c count.toNat
      | .cnt2f count _ _ _ => .cnt2f count.toNat
      | .c2cnt cin _ _ => .c2cnt cin.toNat
      | .pack container value msb width _ _ => .pack container.toNat value.toNat msb.toNat width.toNat
      | .unpack container msb width _ _ _ => .unpack container.toNat msb.toNat width.toNat
      | .getf container fid _ _ _ => .getf container.toNat fid.toNat
      | .setf container value fid _ _ => .setf container.toNat value.toNat fid.toNat
      | .lat cycle avg _ => .lat cycle.toNat avg.toNat

/-! ## Pseudo-instructions -/

/-- The names of CONFIG's fields (R29, R81). -/
inductive FieldName where
  | highAlert
  | lowAlert
  | dataReady
  | eepromBusy
  | mod
  | conv
  | avg
  | tna
  | pol
  | dralert
  | softReset
  | alerts
deriving DecidableEq, Repr

/-- The field id of a name (R29). -/
def FieldName.fid : FieldName → Nat
  | .highAlert => 0
  | .lowAlert => 1
  | .dataReady => 2
  | .eepromBusy => 3
  | .mod => 4
  | .conv => 5
  | .avg => 6
  | .tna => 7
  | .pol => 8
  | .dralert => 9
  | .softReset => 10
  | .alerts => 11

/-- `SET.F` exists for the writable fields only (R69, R81). -/
def FieldName.writable (f : FieldName) : Bool := (fieldTable f.fid).any (·.writable)

/-- The pseudo-instructions (R69). -/
inductive Pseudo where
  | get (f : FieldName) (c : Int)
  | set (f : FieldName) (c v : Int)
  | setSoftReset (c : Int)
  | tempC (count : Int)
  | tempF (count : Int)
  | limit (cin : Int)
deriving DecidableEq, Repr

/-- The line a pseudo-instruction stands for; `SET.F` of a status field is none (R69). -/
def Pseudo.expand : Pseudo → Option AsmLine
  | .get f c => some (.getf c f.fid)
  | .set f c v => if f.writable then some (.setf c v f.fid) else none
  | .setSoftReset c => some (.setf c 1 10)
  | .tempC count => some (.cnt2c count)
  | .tempF count => some (.cnt2f count)
  | .limit cin => some (.c2cnt cin)

/-! ## Numbers as text -/

/-- The value of a digit in base 2, 10 or 16. -/
def digitValue (base : Nat) (c : Char) : Option Nat :=
  let v :=
    if '0' ≤ c ∧ c ≤ '9' then some (c.toNat - 48)
    else if 'A' ≤ c ∧ c ≤ 'F' then some (c.toNat - 55)
    else if 'a' ≤ c ∧ c ≤ 'f' then some (c.toNat - 87)
    else none
  v.filter (· < base)

/-- The value of a run of digits, most significant first, on top of what was read before it. -/
def digitsFrom (base : Nat) (acc : Nat) : List Char → Option Nat
  | [] => some acc
  | c :: cs =>
    match digitValue base c with
    | some d => digitsFrom base (acc * base + d) cs
    | none => none

/-- A nonempty run of digits. -/
def readDigits (base : Nat) : List Char → Option Nat
  | [] => none
  | cs => digitsFrom base 0 cs

/-- Decimal, optionally signed, or `0x` hex or `0b` binary (R68). -/
def readNumber : List Char → Option Int
  | '0' :: 'x' :: cs => (readDigits 16 cs).map Int.ofNat
  | '0' :: 'b' :: cs => (readDigits 2 cs).map Int.ofNat
  | '-' :: cs => (readDigits 10 cs).map fun n => -Int.ofNat n
  | '+' :: cs => (readDigits 10 cs).map Int.ofNat
  | cs => (readDigits 10 cs).map Int.ofNat

/-- The unsigned decimal literal as a Q16.16 integer, or `none` where 65536 times it is no integer (R68).  DESIGN CHOICE
(notes/assumptions/18.md): rule R68 does not say which shapes a decimal literal has; the ones read here are `i` and
`i.f` with at least one digit in each part. -/
def readQ16 (cs : List Char) : Option Nat :=
  match cs.span (· ≠ '.') with
  | (i, []) => (readDigits 10 i).map (· * 65536)
  | (i, _ :: f) =>
    match readDigits 10 i, readDigits 10 f with
    | some n, some m =>
      let scaled := (n * 10 ^ f.length + m) * 65536
      if scaled % 10 ^ f.length = 0 then some (scaled / 10 ^ f.length) else none
    | _, _ => none

/-- A Q16.16 temperature is a signed 32-bit integer (R10's `word32`, R12; that R68 refuses any other is DEDUCED,
notes/assumptions/18.md). -/
def q16InRange (v : Int) : Option Int := if -2147483648 ≤ v ∧ v ≤ 2147483647 then some v else none

/-- C2CNT's operand: a raw integer or `q(x)` with x a Q16.16 temperature (R68, R12).  That no space stands inside the
parentheses and that x may carry a plus sign are the model's (DESIGN CHOICE, notes/assumptions/18.md). -/
def readCin : List Char → Option Int
  | 'q' :: '(' :: cs =>
    (match cs.getLast?, cs.dropLast with
    | some ')', '-' :: x => (readQ16 x).map fun n => -Int.ofNat n
    | some ')', '+' :: x => (readQ16 x).map Int.ofNat
    | some ')', x => (readQ16 x).map Int.ofNat
    | _, _ => none).bind q16InRange
  | cs => readNumber cs

/-- `0x` and `k` hex digits of `n`, most significant first (R70 "printed in hex"). -/
def hexDigits : Nat → Nat → List Char
  | 0, _ => []
  | k + 1, n =>
    let d := n / 16 ^ k % 16
    Char.ofNat (if d < 10 then 48 + d else 55 + d) :: hexDigits k n

/-- An operand printed in hex, `k` digits wide. -/
def hexText (k : Nat) (v : Int) : List Char := '0' :: 'x' :: hexDigits k v.toNat

/-! ## Lines as text -/

/-- The written name of a field (R29). -/
def FieldName.text : FieldName → String
  | .highAlert => "HIGH_ALERT"
  | .lowAlert => "LOW_ALERT"
  | .dataReady => "DATA_READY"
  | .eepromBusy => "EEPROM_BUSY"
  | .mod => "MOD"
  | .conv => "CONV"
  | .avg => "AVG"
  | .tna => "TNA"
  | .pol => "POL"
  | .dralert => "DRALERT"
  | .softReset => "SOFT_RESET"
  | .alerts => "ALERTS"

/-- Every field name. -/
def fieldNames : List FieldName :=
  [.highAlert, .lowAlert, .dataReady, .eepromBusy, .mod, .conv, .avg, .tna, .pol, .dralert, .softReset, .alerts]

/-- The field a text names. -/
def readFieldName (cs : List Char) : Option FieldName := fieldNames.find? fun f => f.text.toList == cs

/-- A field id: a number or a field name (R68, which allows the name in GETF's row). -/
def readFid (cs : List Char) : Option Int :=
  match readFieldName cs with
  | some f => some f.fid
  | none => readNumber cs

/-- Split a text at a separator; the pieces are trimmed of spaces by `trimText`. -/
def splitText (sep : Char) : List Char → List (List Char)
  | [] => [[]]
  | c :: cs =>
    if c = sep then [] :: splitText sep cs
    else match splitText sep cs with
      | [] => [[c]]
      | w :: ws => (c :: w) :: ws

/-- A text without the spaces at its two ends. -/
def trimText (cs : List Char) : List Char :=
  ((cs.dropWhile Char.isWhitespace).reverse.dropWhile Char.isWhitespace).reverse

/-- The operands after a mnemonic, separated by commas (R68); none when nothing follows. -/
def operandTexts (cs : List Char) : List (List Char) :=
  match trimText cs with
  | [] => []
  | t => (splitText ',' t).map trimText

/-- A command line: mnemonic and operands (R68).  That SETF's fid may be a field name as GETF's may, on which R68's row
of SETF is silent, is the model's (DESIGN CHOICE, notes/assumptions/18.md). -/
def readCommand (mnemonic : List Char) (ops : List (List Char)) : Option AsmLine :=
  let is := fun (m : String) => mnemonic == m.toList
  match ops with
  | [] => if is "IDLE" then some .idle else none
  | [a] =>
    if is "CNT2C" then (readNumber a).map .cnt2c
    else if is "CNT2F" then (readNumber a).map .cnt2f
    else if is "C2CNT" then (readCin a).map .c2cnt
    else if is ".word" then (readNumber a).map .word
    else none
  | [a, b] =>
    if is "GETF" then match readNumber a, readFid b with
      | some c, some f => some (.getf c f)
      | _, _ => none
    else if is "LAT" then match readNumber a, readNumber b with
      | some c, some v => some (.lat c v)
      | _, _ => none
    else none
  | [a, b, c] =>
    if is "UNPACK" then match readNumber a, readNumber b, readNumber c with
      | some x, some m, some w => some (.unpack x m w)
      | _, _, _ => none
    else if is "SETF" then match readNumber a, readNumber b, readFid c with
      | some x, some v, some f => some (.setf x v f)
      | _, _, _ => none
    else none
  | [a, b, c, d] =>
    if is "PACK" then match readNumber a, readNumber b, readNumber c, readNumber d with
      | some x, some v, some m, some w => some (.pack x v m w)
      | _, _, _, _ => none
    else none
  | _ => none

/-- A pseudo-instruction line (R69). -/
def readPseudo (mnemonic : List Char) (ops : List (List Char)) : Option Pseudo :=
  let is := fun (m : String) => mnemonic == m.toList
  match mnemonic, ops with
  | 'G' :: 'E' :: 'T' :: '.' :: name, [a] =>
    match readFieldName name, readNumber a with
    | some f, some c => some (.get f c)
    | _, _ => none
  | 'S' :: 'E' :: 'T' :: '.' :: name, [a] =>
    match readFieldName name, readNumber a with
    | some .softReset, some c => some (.setSoftReset c)
    | _, _ => none
  | 'S' :: 'E' :: 'T' :: '.' :: name, [a, b] =>
    match readFieldName name, readNumber a, readNumber b with
    | some f, some c, some v => some (.set f c v)
    | _, _, _ => none
  | _, [a] =>
    if is "TEMP.C" then (readNumber a).map .tempC
    else if is "TEMP.F" then (readNumber a).map .tempF
    else if is "LIMIT" then (readCin a).map .limit
    else none
  | _, _ => none

/-- The line a text stands for: a command form of rule R68, or else a pseudo-instruction of rule R69. -/
def readLine (text : String) : Option AsmLine :=
  let (mnemonic, rest) := (trimText text.toList).span (fun c => !c.isWhitespace)
  match readCommand mnemonic (operandTexts rest) with
  | some l => some l
  | none =>
    match readPseudo mnemonic (operandTexts rest) with
    | some p => p.expand
    | none => none

/-- The edge a text stands for, or the assembler's refusal. -/
def assembleText (text : String) : Option Pins :=
  match readLine text with
  | some l => assemble l
  | none => none

/-- A mnemonic and its operands, each already text. -/
def lineText (mnemonic : String) (ops : List (List Char)) : List Char :=
  mnemonic.toList ++ ' ' :: (List.intercalate [',', ' '] ops)

/-- The written form of a line, operands in the order of rule R68, printed in hex (R70).  The operands a disassembler
gives are never negative. -/
def AsmLine.text : AsmLine → List Char
  | .cnt2c count => lineText "CNT2C" [hexText 4 count]
  | .cnt2f count => lineText "CNT2F" [hexText 4 count]
  | .c2cnt cin => lineText "C2CNT" [hexText 8 cin]
  | .pack container value msb width =>
    lineText "PACK" [hexText 4 container, hexText 4 value, hexText 1 msb, hexText 2 width]
  | .unpack container msb width => lineText "UNPACK" [hexText 4 container, hexText 1 msb, hexText 2 width]
  | .getf container fid => lineText "GETF" [hexText 4 container, hexText 1 fid]
  | .setf container value fid => lineText "SETF" [hexText 4 container, hexText 4 value, hexText 1 fid]
  | .lat cycle avg => lineText "LAT" [hexText 8 cycle, hexText 4 avg]
  | .idle => "IDLE".toList
  | .word w => lineText ".word" [hexText 16 w]

/-- The written form of a word (R70). -/
def disassembleText (c : Cmd) : List Char := (disassemble c).text

end Sys2Proof.Machine
end

