-- ==== Sys2Proof/Machine/Reference.lean ====
section
/-! DEFINITION. `exec(CMD)` as spec/60_exceptions.md rule R94 states it: a total function of the 64-bit word (and the
constant ROM) that returns `ok(v)` or `fail(code)`, and TMPC's next registers as a function of its registers and its
pins alone.  The machine itself runs `exec` of Dispatch.lean; statements compare the two. -/

namespace Sys2Proof.Machine

/-- What the rule of each command returns, reserved bits first (R65, R72 to R74, R79, R80, R83, R84, R91). -/
def evalInstr (l : LatRom) (i : Instr) : Result :=
  unlessReserved i <|
    match i with
    | .cnt2c count _ _ _ => cnt2cResult count
    | .cnt2f count _ _ _ => cnt2fResult count
    | .c2cnt cin _ _ => c2cntResult cin
    | .pack container value msb width _ _ => packResult container value msb width
    | .unpack container msb width _ _ _ => unpackResult container msb width
    | .getf container fid _ _ _ => getfResult container fid
    | .setf container value fid _ _ => setfResult container value fid
    | .lat cycle avg _ => latResult l cycle avg

/-- `exec(CMD)` (R94): an illegal OP first, then the command. -/
def evalCmd (l : LatRom) (c : Cmd) : Result :=
  match decode c with
  | .ok i => evalInstr l i
  | .error _ => .fail .illegalOp

/-- TMPC's registers after one rising edge: a reset, an accepted command or an idle edge (R115). -/
def Tmpc.edge (l : LatRom) (p : Pins) (t : Tmpc) : Tmpc :=
  if p.rst then Tmpc.reset
  else if p.cmdValid then t.commit (evalCmd l p.cmd)
  else t.flagIdle

end Sys2Proof.Machine
end

