-- ==== Sys2Proof/Safety.lean ====
section
/-! DEFINITION. The terms claims use about runs: the edge the next step gives TMPC, the invariant of every run that
starts with a reset, and the premises the spec names (a reset edge before the first command, no error since reset). -/

namespace Sys2Proof.Machine

/-- What the next step drives on TMPC's pins, or `none` when it is a move of the Sensor or of the bus and TMPC gets no
clock edge (notes/assumptions/14.md). -/
def State.nextPins (s : State) : Option Pins :=
  match s.agenda with
  | [] => some ⟨false, false, 0⟩
  | .edge p :: _ => some p
  | .otherHost _ _ :: _ => none
  | .sensor _ :: _ => none
  | .host _ :: _ =>
    match s.host.todo with
    | [] => some ⟨false, false, 0⟩
    | .idle :: _ => some ⟨false, false, 0⟩
    | .reset :: _ => some ⟨true, false, 0⟩
    | .present c :: _ => some ⟨false, true, c⟩
    | .presentOnWord c :: _ => some ⟨false, true, onWord c s.host.w⟩
    | _ :: _ => none

/-- The transaction that the next step makes on the bus, with its draw, or `none` when it makes none.  A Host whose
command failed makes no write of its result (R88). -/
def State.nextTx (s : State) : Option (BusTx × Draw) :=
  match s.agenda with
  | [] => none
  | .edge _ :: _ => none
  | .otherHost tx d :: _ => some (tx, d)
  | .sensor _ :: _ => none
  | .host d :: _ =>
    match s.host.todo with
    | .readReg r :: _ => some (.read (regAddr s.params.sensorRegAddr r) 2, d)
    | .writeReg r v :: _ => some (.write (regAddr s.params.sensorRegAddr r) (wireBytes v), d)
    | .writeResult r :: _ =>
      if s.tmpc.err then none
      else some (.write (regAddr s.params.sensorRegAddr r) (wireBytes (aLo s.tmpc.res)), d)
    | .bus tx :: _ => some (tx, d)
    | _ => none

/-- The next step is an edge with RST = 1. -/
def State.nextIsReset (s : State) : Bool :=
  match s.nextPins with
  | some p => p.rst
  | none => false

/-- TMPC's registers agree: ECODE is a legal code (R22), ERR is set exactly when ECODE names a failure (R101, R102), and
a failure since reset shows in ERRS (R21). -/
abbrev Tmpc.Coherent (t : Tmpc) : Prop :=
  t.ecode.toNat ≤ 8 ∧ (t.err = true ↔ t.ecode ≠ 0) ∧ (t.err = true → t.errs = true)

/-- The invariant of every run that starts with a reset edge: TMPC's registers agree and the Sensor's identity is what
the expected device has (R39). -/
abbrev State.Inv (s : State) : Prop := s.tmpc.Coherent ∧ s.sensor.deviceId = 0x0117

/-- No command has failed since the last reset (R21, R104, decision D15). -/
abbrev State.NoErrorSinceReset (s : State) : Prop := s.tmpc.errs = false

/-- The parameter `SENSOR_REG_ADDR` is as rule R44 says. -/
abbrev State.AddrMapOk (s : State) : Prop := addrMapOk s.params.sensorRegAddr = true

/-- The command completes with the result `v`: the next state is rule R101's commit of `v`, and nothing else changes. -/
abbrev Succeeds (i : Instr) (s : State) (v : Word) : Prop :=
  exec i s = .next { s with tmpc := { s.tmpc with res := v, err := false, ecode := 0, done := true } }

/-- The command fails with the code `k`: the next state is rule R102's commit, RES keeps its value, and nothing else
changes. -/
abbrev FailsWith (i : Instr) (s : State) (k : BitVec 4) : Prop :=
  exec i s = .next { s with tmpc := { s.tmpc with err := true, errs := true, ecode := k, done := true } }

end Sys2Proof.Machine
end

