-- ==== Sys2Proof/Certificates/Slice0/Obligations.lean ====
section
/-! DEFINITION. The statements about this model, for the provers.  Each docstring names the rule of spec/ it formalises;
OBLIGATIONS.json gives its tier, kind and basis.

`Succeeds i s v` and `FailsWith i s k` (Safety.lean) say that `exec i s` ANSWERS A NEXT STATE and give that state whole:
TMPC's registers after the commit, every other part of the state as it was.  So each of them carries the frame: RES is
the only register a success writes besides the flags, a failure leaves RES, and the ROM, the Sensor, the Host and the
agenda never change. -/

open Sys2Proof Sys2Proof.Machine

/-! ## Encoding -/

/-- Words written out from rules R58 and R64, and 95_test_vectors.md section 2, decode to the commands they stand for. -/
def Obligations.DecodesWordsWrittenFromTheSpec : Prop :=
  decode 0x1000000000000190 = .ok (.cnt2c 0x0190 0 0 0) ∧
  decode 0x200000000000EC00 = .ok (.cnt2f 0xEC00 0 0 0) ∧
  decode 0x30000000FFD80000 = .ok (.c2cnt 0xFFD80000 0 0) ∧
  decode 0x410FABCD00001234 = .ok (.pack 0x1234 0xABCD 15 16 0 0) ∧
  decode 0x504B00000000ABCD = .ok (.unpack 0xABCD 11 4 0 0 0) ∧
  decode 0x600B00000000C000 = .ok (.getf 0xC000 11 0 0 0) ∧
  decode 0x7005000700000220 = .ok (.setf 0x0220 7 5 0 0) ∧
  decode 0x8000000300000004 = .ok (.lat 4 3 0) ∧
  decode 0x4226000200010000 = .ok (.pack 0x0000 2 6 2 0x0001 0x1) ∧
  decode 0x9000000000000000 = .error (.illegalOp 9)

/-- R67: the encoding function as the sum of the four fields at their places, with P = 16 * width + msb for PACK and
UNPACK and P = fid for GETF and SETF. -/
def Obligations.EncodingIsTheWeightedSumOfItsFields : Prop :=
  (∀ (op : BitVec 4) (p : BitVec 12) (b : Half) (a : Word),
    (enc op p b a).toNat = op.toNat * 2 ^ 60 + p.toNat * 2 ^ 48 + b.toNat * 2 ^ 32 + a.toNat) ∧
  (∀ (c v : Half) (m : BitVec 4) (w : BitVec 5),
    (pField (encode (.pack c v m w 0 0))).toNat = 16 * w.toNat + m.toNat ∧
    (pField (encode (.unpack c m w 0 0 0))).toNat = 16 * w.toNat + m.toNat) ∧
  (∀ (c v : Half) (f : BitVec 4),
    (pField (encode (.getf c f 0 0 0))).toNat = f.toNat ∧ (pField (encode (.setf c v f 0 0))).toNat = f.toNat)

/-- Decoding an encoded command gives it back, with every operand and every reserved bit at every value: well-formed
commands and commands with reserved bits set alike. -/
def Obligations.DecodeOfEncodeIsTheCommand : Prop := ∀ i : Instr, decode (encode i) = .ok i

/-- Every word the decoder accepts is the encoding of the command it gives: no bit of a word is dropped. -/
def Obligations.EncodeOfDecodeIsTheWord : Prop := ∀ (c : Cmd) (i : Instr), decode c = .ok i → encode i = c

/-- R64: OP 0x1 to 0x8 select the eight commands, and an illegal OP makes the command fail with ILLEGAL_OP (code 1)
whatever its other bits hold. -/
def Obligations.OpcodeAloneSelectsTheCommand : Prop :=
  ∀ (p : BitVec 12) (b : Half) (a : Word),
    (∃ w x y z, decode (enc 0x1 p b a) = .ok (.cnt2c w x y z)) ∧
    (∃ w x y z, decode (enc 0x2 p b a) = .ok (.cnt2f w x y z)) ∧
    (∃ w x y, decode (enc 0x3 p b a) = .ok (.c2cnt w x y)) ∧
    (∃ u v w x y z, decode (enc 0x4 p b a) = .ok (.pack u v w x y z)) ∧
    (∃ u v w x y z, decode (enc 0x5 p b a) = .ok (.unpack u v w x y z)) ∧
    (∃ v w x y z, decode (enc 0x6 p b a) = .ok (.getf v w x y z)) ∧
    (∃ v w x y z, decode (enc 0x7 p b a) = .ok (.setf v w x y z)) ∧
    (∃ w x y, decode (enc 0x8 p b a) = .ok (.lat w x y)) ∧
    ∀ (op : BitVec 4) (s : State), op = 0 ∨ op.toNat > 8 →
      accept (enc op p b a) s =
        .next { s with tmpc := { s.tmpc with err := true, errs := true, ecode := 1, done := true } }

/-- R65: RSVD_MASK(OP) as the rule's table prints it; a command has a bit of its mask set exactly when it is not well
formed, and then it fails with RSVD (code 2) and does nothing else, whatever its operands are. -/
def Obligations.ReservedBitsFailWithRsvd : Prop :=
  (rsvdMask 0x1 = 0x0FFFFFFFFFFF0000 ∧ rsvdMask 0x2 = 0x0FFFFFFFFFFF0000 ∧ rsvdMask 0x3 = 0x0FFFFFFF00000000 ∧
    rsvdMask 0x4 = 0x0E000000FFFF0000 ∧ rsvdMask 0x5 = 0x0E00FFFFFFFF0000 ∧ rsvdMask 0x6 = 0x0FF0FFFFFFFF0000 ∧
    rsvdMask 0x7 = 0x0FF00000FFFF0000 ∧ rsvdMask 0x8 = 0x0FFF000000000000) ∧
  ∀ (i : Instr) (s : State),
    (encode i &&& rsvdMask (opField (encode i)) ≠ 0 ↔ i.wellFormed = false) ∧
    (encode i &&& rsvdMask (opField (encode i)) ≠ 0 → FailsWith i s 2)

/-! ## The commit -/

/-- R101 and R102: the commit of a success and of a failure at an accepted edge, on the word presented. -/
def Obligations.AcceptedEdgeCommitsTheResult : Prop :=
  ∀ (c : Cmd) (s : State),
    (∀ v, evalCmd s.params.latRom c = .ok v →
      clockEdge ⟨false, true, c⟩ s =
        .next { s with tmpc := { s.tmpc with res := v, err := false, ecode := 0, done := true } }) ∧
    (∀ e, evalCmd s.params.latRom c = .fail e →
      clockEdge ⟨false, true, c⟩ s =
        .next { s with tmpc := { s.tmpc with err := true, errs := true, ecode := e.code, done := true } })

/-- R95, R102: a command either commits a result or fails with one of the codes 1 to 8; it always has a next state, and
it changes nothing but RES and the flags, and RES only when it succeeds. -/
def Obligations.EveryCommandCompletesAndIsPrecise : Prop :=
  ∀ (i : Instr) (s : State),
    (∃ v, Succeeds i s v) ∨ ∃ k : BitVec 4, 1 ≤ k.toNat ∧ k.toNat ≤ 8 ∧ FailsWith i s k

/-- R94's last sentence: what a command computes does not depend on RES, on the flags or on the Sensor.  Two states with
one ROM give one result, on every command. -/
def Obligations.ResultDependsOnTheCommandAlone : Prop :=
  ∀ (i : Instr) (s s' : State), s.params.latRom = s'.params.latRom →
    (∀ v, Succeeds i s v → Succeeds i s' v) ∧ (∀ k, FailsWith i s k → FailsWith i s' k)

/-- R103: an idle edge writes DONE alone. -/
def Obligations.IdleEdgeWritesDoneOnly : Prop :=
  ∀ (s : State) (c : Cmd),
    clockEdge ⟨false, false, c⟩ s = .next { s with tmpc := { s.tmpc with done := false } }

/-- R110: an edge with RST = 1 clears TMPC's five registers, ignores CMD and CMD_VALID, and does nothing to the ROM or
the Sensor. -/
def Obligations.ResetEdgeClearsTmpcOnly : Prop :=
  ∀ (s : State) (valid : Bool) (c : Cmd),
    clockEdge ⟨true, valid, c⟩ s =
      .next { s with tmpc := { res := 0x00000000, err := false, errs := false, ecode := 0, done := false } }

/-- R24: STAT_O = {DONE, ERRS, ERR, 0, ECODE}, bit by bit. -/
def Obligations.StatusPortShowsTheFlags : Prop :=
  ∀ s : State, s.resO = s.tmpc.res ∧
    s.statO.getLsbD 7 = s.tmpc.done ∧ s.statO.getLsbD 6 = s.tmpc.errs ∧ s.statO.getLsbD 5 = s.tmpc.err ∧
    s.statO.getLsbD 4 = false ∧ s.statO.extractLsb' 0 4 = s.tmpc.ecode

/-! ## The temperature converter -/

/-- R73: CNT2C gives 512 n, which is n / 128 degrees Celsius in Q16.16, and fails only on a reserved bit. -/
def Obligations.CountToCelsiusIsExact : Prop :=
  ∀ (count aHi b : Half) (p : BitVec 12) (s : State),
    decode (enc 0x1 p b (aHi ++ count)) = .ok (.cnt2c count aHi b p) ∧
    (aHi = 0 ∧ b = 0 ∧ p = 0 → ∃ v, Succeeds (.cnt2c count aHi b p) s v ∧ v.toInt = 512 * count.toInt) ∧
    (¬(aHi = 0 ∧ b = 0 ∧ p = 0) → FailsWith (.cnt2c count aHi b p) s 2)

/-- R74: CNT2F gives the integer nearest to (9n/640 + 32) * 65536 = 4608n/5 + 2097152, and fails only on a reserved bit.
The bound 2 on five times the error leaves exactly one integer, since a tie would need 5/2. -/
def Obligations.CountToFahrenheitIsNearest : Prop :=
  ∀ (count aHi b : Half) (p : BitVec 12) (s : State),
    decode (enc 0x2 p b (aHi ++ count)) = .ok (.cnt2f count aHi b p) ∧
    (aHi = 0 ∧ b = 0 ∧ p = 0 → ∃ v, Succeeds (.cnt2f count aHi b p) s v ∧
      -2 ≤ 5 * (v.toInt - 2097152) - 4608 * count.toInt ∧ 5 * (v.toInt - 2097152) - 4608 * count.toInt ≤ 2) ∧
    (¬(aHi = 0 ∧ b = 0 ∧ p = 0) → FailsWith (.cnt2f count aHi b p) s 2)

/-- R72: C2CNT gives the count nearest to cin / 512, the even one on a tie, sign-extended; it accepts exactly the inputs
-16777472 to 16776959, and fails with RANGE outside them and with RSVD on a reserved bit. -/
def Obligations.CelsiusToCountRoundsToNearestEven : Prop :=
  ∀ (cin : Word) (b : Half) (p : BitVec 12) (s : State),
    decode (enc 0x3 p b cin) = .ok (.c2cnt cin b p) ∧
    (b = 0 ∧ p = 0 →
      (-16777472 ≤ cin.toInt ∧ cin.toInt ≤ 16776959 →
        ∃ v, Succeeds (.c2cnt cin b p) s v ∧ -32768 ≤ v.toInt ∧ v.toInt ≤ 32767 ∧
          -256 ≤ 512 * v.toInt - cin.toInt ∧ 512 * v.toInt - cin.toInt ≤ 256 ∧
          (512 * v.toInt - cin.toInt = 256 ∨ 512 * v.toInt - cin.toInt = -256 → v.toInt % 2 = 0)) ∧
      (cin.toInt < -16777472 ∨ 16776959 < cin.toInt → FailsWith (.c2cnt cin b p) s 3)) ∧
    (¬(b = 0 ∧ p = 0) → FailsWith (.c2cnt cin b p) s 2)

/-- R76: the four laws of the converter. -/
def Obligations.ConverterLaws : Prop :=
  (∀ (n : Half) (s : State), ∃ v, Succeeds (.cnt2c n 0 0 0) s v ∧
    ∀ s' : State, ∃ w, Succeeds (.c2cnt v 0 0) s' w ∧ w.toInt = n.toInt) ∧
  ((∀ (c c' v v' : Word) (s : State), c.toInt ≤ c'.toInt → Succeeds (.c2cnt c 0 0) s v →
      Succeeds (.c2cnt c' 0 0) s v' → v.toInt ≤ v'.toInt) ∧
    (∀ (n n' : Half) (v v' : Word) (s : State), n.toInt < n'.toInt → Succeeds (.cnt2c n 0 0 0) s v →
      Succeeds (.cnt2c n' 0 0 0) s v' → v.toInt < v'.toInt) ∧
    (∀ (n n' : Half) (v v' : Word) (s : State), n.toInt < n'.toInt → Succeeds (.cnt2f n 0 0 0) s v →
      Succeeds (.cnt2f n' 0 0 0) s v' → v.toInt < v'.toInt) ∧
    (∀ (n n' : Half) (v v' : Word) (s : State), n'.toInt = n.toInt + 1 → Succeeds (.cnt2f n 0 0 0) s v →
      Succeeds (.cnt2f n' 0 0 0) s v' → v'.toInt - v.toInt = 921 ∨ v'.toInt - v.toInt = 922)) ∧
  (∀ (n : Half) (v : Word) (s : State), Succeeds (.cnt2f n 0 0 0) s v →
    |(v.toInt : ℚ) / 65536 - (9 * n.toInt / 640 + 32)| ≤ 4 / 10 / 65536) ∧
  (∀ (c v : Word) (s : State), Succeeds (.c2cnt c 0 0) s v → |(v.toInt : ℚ) - c.toInt / 512| ≤ 1 / 2)

/-! ## The bit-field commands -/

/-- R79 with R78: PACK on a legal geometry and a value that fits replaces exactly the bits msb down to msb - width + 1 of
the container by the value and keeps every other bit; otherwise it fails, RSVD before GEOMETRY before VALUE_WIDE. -/
def Obligations.PackReplacesExactlyTheField : Prop :=
  ∀ (c v : Half) (m : BitVec 4) (w : BitVec 5) (aHi : Half) (pHi : BitVec 3) (s : State),
    decode (enc 0x4 (pHi ++ w ++ m) v (aHi ++ c)) = .ok (.pack c v m w aHi pHi) ∧
    (aHi = 0 ∧ pHi = 0 →
      (1 ≤ w.toNat ∧ w.toNat ≤ m.toNat + 1 →
        (v.toNat < 2 ^ w.toNat → ∃ r : Word, Succeeds (.pack c v m w aHi pHi) s r ∧
          ∀ k < 32, r.getLsbD k =
            if m.toNat + 1 - w.toNat ≤ k ∧ k ≤ m.toNat then v.getLsbD (k - (m.toNat + 1 - w.toNat)) else c.getLsbD k) ∧
        (2 ^ w.toNat ≤ v.toNat → FailsWith (.pack c v m w aHi pHi) s 5)) ∧
      (w.toNat = 0 ∨ m.toNat + 1 < w.toNat → FailsWith (.pack c v m w aHi pHi) s 4)) ∧
    (¬(aHi = 0 ∧ pHi = 0) → FailsWith (.pack c v m w aHi pHi) s 2)

/-- R80 with R78: UNPACK on a legal geometry gives the bits msb down to msb - width + 1, right-aligned and zero-extended;
otherwise it fails, RSVD before GEOMETRY. -/
def Obligations.UnpackReadsExactlyTheField : Prop :=
  ∀ (c : Half) (m : BitVec 4) (w : BitVec 5) (aHi b : Half) (pHi : BitVec 3) (s : State),
    decode (enc 0x5 (pHi ++ w ++ m) b (aHi ++ c)) = .ok (.unpack c m w aHi b pHi) ∧
    (aHi = 0 ∧ b = 0 ∧ pHi = 0 →
      (1 ≤ w.toNat ∧ w.toNat ≤ m.toNat + 1 → ∃ r : Word, Succeeds (.unpack c m w aHi b pHi) s r ∧
        ∀ k < 32, r.getLsbD k = (decide (k < w.toNat) && c.getLsbD (m.toNat + 1 - w.toNat + k))) ∧
      (w.toNat = 0 ∨ m.toNat + 1 < w.toNat → FailsWith (.unpack c m w aHi b pHi) s 4)) ∧
    (¬(aHi = 0 ∧ b = 0 ∧ pHi = 0) → FailsWith (.unpack c m w aHi b pHi) s 2)

/-- R83 with R82 and R86: GETF gives the bits of its field's row of the table, right-aligned and zero-extended, which is
the member of `decodeConfig` that the field id names, for all twelve ids; ids 12 to 15 fail with BAD_FIELD, and a
reserved bit with RSVD. -/
def Obligations.GetfReadsTheNamedConfigField : Prop :=
  ∀ (c : Half) (f : BitVec 4) (aHi b : Half) (pHi : BitVec 8) (s : State),
    decode (enc 0x6 (pHi ++ f) b (aHi ++ c)) = .ok (.getf c f aHi b pHi) ∧
    (aHi = 0 ∧ b = 0 ∧ pHi = 0 →
      (f.toNat ≤ 11 → ∃ (row : Field) (r : Word), fieldTable f.toNat = some row ∧ Succeeds (.getf c f aHi b pHi) s r ∧
        (∀ k < 32, r.getLsbD k = (decide (k < row.width) && c.getLsbD (row.msb + 1 - row.width + k))) ∧
        (decodeConfig c).member f.toNat = some r.toNat) ∧
      (11 < f.toNat → FailsWith (.getf c f aHi b pHi) s 6)) ∧
    (¬(aHi = 0 ∧ b = 0 ∧ pHi = 0) → FailsWith (.getf c f aHi b pHi) s 2)

/-- R84 with R81: SETF of a writable field with a value that fits gives the word with that field replaced and every other
bit kept; otherwise it fails, RSVD before BAD_FIELD before READ_ONLY (ids 0 to 3 and 11) before VALUE_WIDE. -/
def Obligations.SetfReplacesTheNamedConfigField : Prop :=
  ∀ (c v : Half) (f : BitVec 4) (aHi : Half) (pHi : BitVec 8) (s : State),
    decode (enc 0x7 (pHi ++ f) v (aHi ++ c)) = .ok (.setf c v f aHi pHi) ∧
    (aHi = 0 ∧ pHi = 0 →
      (4 ≤ f.toNat ∧ f.toNat ≤ 10 → ∃ row : Field, fieldTable f.toNat = some row ∧
        (v.toNat < 2 ^ row.width → ∃ r : Word, Succeeds (.setf c v f aHi pHi) s r ∧
          (decodeConfig (aLo r)).member f.toNat = some v.toNat ∧
          ∀ k < 32, ¬(row.msb + 1 - row.width ≤ k ∧ k ≤ row.msb) → r.getLsbD k = c.getLsbD k) ∧
        (2 ^ row.width ≤ v.toNat → FailsWith (.setf c v f aHi pHi) s 5)) ∧
      (f.toNat ≤ 3 ∨ f.toNat = 11 → FailsWith (.setf c v f aHi pHi) s 7) ∧
      (11 < f.toNat → FailsWith (.setf c v f aHi pHi) s 6)) ∧
    (¬(aHi = 0 ∧ pHi = 0) → FailsWith (.setf c v f aHi pHi) s 2)

/-- R81: the field table, row by row. -/
def Obligations.FieldTableIsAsPrinted : Prop :=
  (List.range 16).map fieldTable =
    [some ⟨15, 1, false⟩, some ⟨14, 1, false⟩, some ⟨13, 1, false⟩, some ⟨12, 1, false⟩, some ⟨11, 2, true⟩,
      some ⟨9, 3, true⟩, some ⟨6, 2, true⟩, some ⟨4, 1, true⟩, some ⟨3, 1, true⟩, some ⟨2, 1, true⟩, some ⟨1, 1, true⟩,
      some ⟨15, 2, false⟩, none, none, none, none]

/-- R85: the five laws of the bit-field commands, over every legal geometry and every container. -/
def Obligations.BitFieldLaws : Prop :=
  (∀ (c v : Half) (m : BitVec 4) (w : BitVec 5) (s : State),
    1 ≤ w.toNat → w.toNat ≤ m.toNat + 1 → v.toNat < 2 ^ w.toNat →
    ∃ r, Succeeds (.pack c v m w 0 0) s r ∧
      (∀ s' : State, Succeeds (.unpack (aLo r) m w 0 0 0) s' (zext32 v)) ∧
      (c ^^^ aLo r) &&& ~~~fmask m.toNat w.toNat = 0 ∧
      (c ^^^ aLo r) &&& fmask m.toNat w.toNat =
        (c ^^^ BitVec.ofNat 16 (v.toNat * 2 ^ (m.toNat + 1 - w.toNat))) &&& fmask m.toNat w.toNat) ∧
  (∀ (c : Half) (m : BitVec 4) (w : BitVec 5) (s : State), 1 ≤ w.toNat → w.toNat ≤ m.toNat + 1 →
    ∃ r, Succeeds (.unpack c m w 0 0 0) s r ∧
      ∀ s' : State, Succeeds (.pack c (aLo r) m w 0 0) s' (zext32 c)) ∧
  (∀ (c v : Half) (f : BitVec 4) (row : Field) (s : State), fieldTable f.toNat = some row →
    exec (.getf c f 0 0 0) s = exec (.unpack c (BitVec.ofNat 4 row.msb) (BitVec.ofNat 5 row.width) 0 0 0) s ∧
    (row.writable = true →
      exec (.setf c v f 0 0) s = exec (.pack c v (BitVec.ofNat 4 row.msb) (BitVec.ofNat 5 row.width) 0 0) s)) ∧
  (∀ (c v v' : Half) (f f' : BitVec 4) (row row' : Field) (s : State),
    fieldTable f.toNat = some row → fieldTable f'.toNat = some row' → row.writable = true → row'.writable = true →
    fmask row.msb row.width &&& fmask row'.msb row'.width = 0 →
    v.toNat < 2 ^ row.width → v'.toNat < 2 ^ row'.width →
    ∃ a b r, Succeeds (.setf c v f 0 0) s a ∧ (∀ s' : State, Succeeds (.setf (aLo a) v' f' 0 0) s' r) ∧
      Succeeds (.setf c v' f' 0 0) s b ∧ ∀ s' : State, Succeeds (.setf (aLo b) v f 0 0) s' r)

/-! ## The latency ROM -/

/-- R91: LAT gives ROM[4 * cycle + avg], zero-extended, for cycle 0 to 7 and avg 0 to 3; any other index fails with
LAT_INDEX, all 32 bits of cycle and all 16 of avg being compared, and a reserved bit fails with RSVD. -/
def Obligations.LatReadsTheRom : Prop :=
  ∀ (cycle : Word) (avg : Half) (p : BitVec 12) (s : State),
    decode (enc 0x8 p avg cycle) = .ok (.lat cycle avg p) ∧
    (p = 0 →
      (cycle.toNat ≤ 7 ∧ avg.toNat ≤ 3 → ∃ e v, (romTable s.params.latRom)[4 * cycle.toNat + avg.toNat]? = some e ∧
        Succeeds (.lat cycle avg p) s v ∧ v.toNat = e.toNat) ∧
      (7 < cycle.toNat ∨ 3 < avg.toNat → FailsWith (.lat cycle avg p) s 8)) ∧
    (p ≠ 0 → FailsWith (.lat cycle avg p) s 2)

/-- The S cells of R90, in every state, that is for every value of the parameter `LAT_ROM`: LAT 0,0 gives 31 (15.5 ms),
LAT 4,a 2000 (1000 ms) and LAT 7,a 32000 (16000 ms) for every averaging setting a. -/
def Obligations.LatSourceCells : Prop :=
  ∀ s : State, Succeeds (.lat 0 0 0) s 31 ∧
    ∀ a : Half, a.toNat ≤ 3 → Succeeds (.lat 4 a 0) s 2000 ∧ Succeeds (.lat 7 a 0) s 32000

/-- R92, with the parameter `LAT_ROM` at rule R90's values as a hypothesis: for cycle 4 to 7 the entry does not depend on
avg, every entry lies in 31 to 32000, and entries do not decrease in avg or in cycle. -/
def Obligations.LatRomLaws : Prop :=
  ∀ s : State, s.params.latRom = latRomDefault →
    (∀ (c a a' : Nat), 4 ≤ c → c ≤ 7 → a ≤ 3 → a' ≤ 3 →
      romRead s.params.latRom (BitVec.ofNat 5 (4 * c + a)) = romRead s.params.latRom (BitVec.ofNat 5 (4 * c + a'))) ∧
    (∀ i : BitVec 5, 31 ≤ (romRead s.params.latRom i).toNat ∧ (romRead s.params.latRom i).toNat ≤ 32000) ∧
    (∀ (c c' a a' : Nat), c ≤ c' → c' ≤ 7 → a ≤ a' → a' ≤ 3 →
      (romRead s.params.latRom (BitVec.ofNat 5 (4 * c + a))).toNat ≤
        (romRead s.params.latRom (BitVec.ofNat 5 (4 * c' + a'))).toNat)

/-- R49: a ROM read has no side effect and is idempotent: two LAT commands with the same legal operands both succeed,
return the same word, the entry 4 * cycle + avg of the ROM, and change neither the ROM nor the Sensor. -/
def Obligations.RomReadIsIdempotent : Prop :=
  ∀ (cycle : Word) (avg : Half) (s : State), cycle.toNat ≤ 7 → avg.toNat ≤ 3 →
    ∃ (e : Half) (v : Word) (t : State),
      (romTable s.params.latRom)[4 * cycle.toNat + avg.toNat]? = some e ∧ v.toNat = e.toNat ∧
      Succeeds (.lat cycle avg 0) s v ∧ exec (.lat cycle avg 0) s = .next t ∧ t.tmpc.res = v ∧
      Succeeds (.lat cycle avg 0) t v ∧ exec (.lat cycle avg 0) t = .next t ∧
      t.params = s.params ∧ t.sensor = s.sensor

/-! ## The machine -/

/-- A step runs the decoded command: an edge with RST = 0 and CMD_VALID = 1 whose word decodes to `i` is `exec i` at the
state whose agenda has moved on.  The second clause is about the model's own device: that a word is presented by
`withFetchWord` is notes/assumptions/2.md's DESIGN CHOICE, and that bit k of an opcode-table word is bit k of CMD is
notes/assumptions/17.md. -/
def Obligations.StepRunsTheDecodedCommand : Prop :=
  (∀ (s : State) (c : Cmd) (rest : List Turn) (i : Instr), s.agenda = .edge ⟨false, true, c⟩ :: rest →
    decode c = .ok i → step s = exec i { s with agenda := rest }) ∧
  (∀ (s : State) (nbits w : Nat), step (s.withFetchWord nbits w) = accept (tableWord nbits w) s)

/-- Presenting the encoding of a command runs that command, for every command and every state. -/
def Obligations.PresentedEncodingRunsTheCommand : Prop :=
  ∀ (i : Instr) (s : State), step (s.withFetchWord 64 (encode i).toNat) = exec i s

/-- R115, R116: TMPC is a synchronous block.  A step that drives its pins leaves its registers at `Tmpc.edge` of what they
were, a function of the registers, the ROM and the pins alone, and a step that does not drive them leaves them as they
were. -/
def Obligations.StepIsOneTmpcEdge : Prop :=
  ∀ s t : State, step s = .next t →
    match s.nextPins with
    | some p => t.tmpc = s.tmpc.edge s.params.latRom p ∧ t.sensor = s.sensor
    | none => t.tmpc = s.tmpc

/-- The premise of every claim about a run, kept by every step: ECODE is a legal code (R22), ERR says what ECODE says,
a failure shows in ERRS, and DEVICE_ID is constant. -/
def Obligations.EveryStepKeepsTheInvariant : Prop := ∀ s t : State, s.Inv → step s = .next t → t.Inv

/-- The state after reset meets the invariant. -/
def Obligations.ResetMeetsTheInvariant : Prop := State.reset.Inv

/-- R111's launch premise: from ANY state, the unknown state before the first reset among them, a reset edge gives a
state whose TMPC registers are those of `State.reset`. -/
def Obligations.ResetEdgeStartsFromAnyState : Prop :=
  ∀ s t : State, s.nextIsReset = true → step s = .next t → t.tmpc = State.reset.tmpc ∧ t.tmpc.Coherent

/-- R20 to R23: what each step does to the flags.  ERR and ECODE are written at every accepted edge and at no other but a
reset, ERRS is set by a failing command and cleared by nothing but a reset, and DONE is 1 exactly after an accepted
edge. -/
def Obligations.FlagsFollowTheEdges : Prop :=
  ∀ (s t : State) (p : Pins), step s = .next t → s.nextPins = some p →
    (p.rst = true → t.tmpc.err = false ∧ t.tmpc.errs = false ∧ t.tmpc.ecode = 0 ∧ t.tmpc.done = false) ∧
    (p.rst = false → p.cmdValid = true →
      (∀ v, evalCmd s.params.latRom p.cmd = .ok v →
        t.tmpc.err = false ∧ t.tmpc.ecode = 0 ∧ t.tmpc.errs = s.tmpc.errs ∧ t.tmpc.done = true) ∧
      (∀ e, evalCmd s.params.latRom p.cmd = .fail e →
        t.tmpc.err = true ∧ t.tmpc.ecode = e.code ∧ 1 ≤ e.code.toNat ∧ e.code.toNat ≤ 8 ∧ t.tmpc.errs = true ∧
          t.tmpc.done = true)) ∧
    (p.rst = false → p.cmdValid = false →
      t.tmpc.err = s.tmpc.err ∧ t.tmpc.ecode = s.tmpc.ecode ∧ t.tmpc.errs = s.tmpc.errs ∧ t.tmpc.done = false)

/-- R21: once set, ERRS stays set until a reset edge. -/
def Obligations.StickyErrorFlagOnlyResetClears : Prop :=
  ∀ s t : State, step s = .next t → s.tmpc.errs = true → s.nextIsReset = false → t.tmpc.errs = true

/-- R19: RES changes only at a reset edge or at an accepted edge whose command succeeds, and then it is the result word. -/
def Obligations.ResultRegisterWrittenOnlyBySuccess : Prop :=
  ∀ s t : State, step s = .next t → t.tmpc.res ≠ s.tmpc.res →
    s.nextIsReset = true ∧ t.tmpc.res = 0 ∨
      ∃ c v, s.nextPins = some ⟨false, true, c⟩ ∧ evalCmd s.params.latRom c = .ok v ∧ t.tmpc.res = v

/-- R42, R90: the ROM is constant.  No step changes it, or any other parameter. -/
def Obligations.NoStepChangesTheParameters : Prop := ∀ s t : State, step s = .next t → t.params = s.params

/-- R6, R18: TMPC never sees the Sensor.  Two machines that agree on TMPC's registers, the ROM and the pins of the next
edge agree on TMPC's registers after it, whatever their Sensors, Hosts and remaining agendas hold. -/
def Obligations.TmpcNeverSeesTheSensor : Prop :=
  ∀ s s' t t' : State, s.tmpc = s'.tmpc → s.params.latRom = s'.params.latRom → s.nextPins = s'.nextPins →
    step s = .next t → step s' = .next t' → t.tmpc = t'.tmpc

/-- What stops the machine: exactly a step that makes a bus transaction (`State.nextTx`: another Host's, or this Host's
read, raw or unskipped result write) to which the Sensor has no answer.  Every clock edge, every move of the Sensor, every
other step of the Host and every transaction with an answer, failing ones included, has a next state.  Which transactions
have no answer, and that their fate makes no difference, is notes/assumptions/12.md and 13.md. -/
def Obligations.OnlyBusTransactionsStop : Prop :=
  ∀ s : State, (∀ t, step s ≠ .next t) ↔
    ∃ tx d, s.nextTx = some (tx, d) ∧ ∀ rx sn, transact s.params tx d.regs s.sensor ≠ .done rx sn

/-- A step on an empty agenda is an idle edge (the model's choice, notes/assumptions/1.md: nothing is scheduled, and the
clock runs on). -/
def Obligations.EmptyAgendaIsAnIdleEdge : Prop :=
  ∀ s : State, s.agenda = [] → step s = .next { s with tmpc := { s.tmpc with done := false } }

/-- What reset leaves (R19 to R23, R38, R39): the five registers are 0, CONFIG is `SENSOR_CONFIG_RESET` and DEVICE_ID is
0x0117. -/
def Obligations.ResetState : Prop :=
  State.reset.tmpc = { res := 0x00000000, err := false, errs := false, ecode := 0, done := false } ∧
    State.reset.statO = 0x00 ∧ State.reset.sensor.config = State.reset.params.sensorConfigReset ∧
    State.reset.sensor.deviceId = 0x0117

/-! ## The Sensor -/

/-- R45: a register word goes over the wire most significant byte first, both ways. -/
def Obligations.WireIsBigEndian : Prop :=
  (∀ b0 b1 : Byte, (wireWord b0 b1).toNat = 256 * b0.toNat + b1.toNat) ∧
  (∀ v : Half, ∃ b0 b1 : Byte, wireBytes v = [b0, b1] ∧ b0 = v.extractLsb' 8 8 ∧ b1 = v.extractLsb' 0 8 ∧
    wireWord b0 b1 = v)

/-- R50: a completing `SensorRead(CONFIG)` gives the Host the word as it was, alert flags included, and clears bits 15
and 14.  That the bits R31, R32 and R37 leave open (13, 12, 1, 0) are the turn's draw, in the word and in the register
alike, is notes/assumptions/9.md (DEDUCED).  Nothing else changes but the Host's own registers. -/
def Obligations.ConfigReadConsumesTheAlerts : Prop :=
  ∀ (s : State) (d : Draw) (rest : List Turn) (ops : List HostOp), s.AddrMapOk → s.agenda = .host d :: rest →
    s.host.todo = .readReg .config :: ops → d.fate = .completes →
    ∃ w, step s = .next { s with
        agenda := rest, sensor := { s.sensor with config := w &&& 0x3FFF },
        host := { s.host with todo := ops, now := s.host.now + d.elapsed, w := w } } ∧
      w &&& 0xCFFC = s.sensor.config &&& 0xCFFC ∧ w &&& 0x3003 = d.regs.config &&& 0x3003

/-- R118: of two CONFIG reads with no step of the Sensor between them, only the first shows the alert flags. -/
def Obligations.SecondConfigReadShowsNoAlert : Prop :=
  ∀ (s : State) (d d' : Draw) (rest : List Turn) (ops : List HostOp), s.AddrMapOk →
    s.agenda = .host d :: .host d' :: rest → s.host.todo = .readReg .config :: .readReg .config :: ops →
    d.fate = .completes → d'.fate = .completes →
    ∃ t u, step s = .next t ∧ step t = .next u ∧
      t.host.w &&& 0xC000 = s.sensor.config &&& 0xC000 ∧ u.host.w &&& 0xC000 = 0

/-- R51: a read of a register other than CONFIG returns its content and changes nothing in the Sensor. -/
def Obligations.OtherReadsHaveNoSideEffect : Prop :=
  ∀ (s : State) (r : SensorReg) (d : Draw) (rest : List Turn) (ops : List HostOp), s.AddrMapOk →
    s.agenda = .host d :: rest → s.host.todo = .readReg r :: ops → r ≠ .config → d.fate = .completes →
    step s = .next { s with
      agenda := rest,
      host := { s.host with todo := ops, now := s.host.now + d.elapsed, w := s.sensor.get r } }

/-- R53: a `SensorWrite(CONFIG, v)` with bit 1 clear sets MOD, CONV, AVG, TNA, POL and DRALERT to v's, leaves bits 15:12
and 0 to the environment, and touches no other register.  That these bits are the turn's draw, and that bit 1 after the
write is drawn with them (R53 does not name it, and R37 speaks of a read), is notes/assumptions/10.md's DESIGN CHOICE. -/
def Obligations.ConfigWriteSetsTheModeFields : Prop :=
  ∀ (s : State) (v : Half) (d : Draw) (rest : List Turn) (ops : List HostOp), s.AddrMapOk →
    s.agenda = .host d :: rest → s.host.todo = .writeReg .config v :: ops → d.fate = .completes →
    v.getLsbD 1 = false →
    ∃ c, step s = .next { s with
        agenda := rest, sensor := { s.sensor with config := c },
        host := { s.host with todo := ops, now := s.host.now + d.elapsed } } ∧
      (decodeConfig c).mod = (decodeConfig v).mod ∧ (decodeConfig c).conv = (decodeConfig v).conv ∧
      (decodeConfig c).avg = (decodeConfig v).avg ∧ (decodeConfig c).tna = (decodeConfig v).tna ∧
      (decodeConfig c).pol = (decodeConfig v).pol ∧ (decodeConfig c).dralert = (decodeConfig v).dralert ∧
      c &&& 0xF003 = d.regs.config &&& 0xF003

/-- R113, R40: a `SensorWrite(CONFIG, v)` with bit 1 set is a soft reset: T_HIGH_LIMIT becomes 0x6000 and T_LOW_LIMIT
0x8000, CONFIG's mode fields become those of `SENSOR_CONFIG_RESET`, and TMPC does not change.  That this holds at once
after the write is notes/assumptions/10.md (DEDUCED). -/
def Obligations.SoftResetRestoresTheDefaults : Prop :=
  ∀ (s : State) (v : Half) (d : Draw) (rest : List Turn) (ops : List HostOp), s.AddrMapOk →
    s.agenda = .host d :: rest → s.host.todo = .writeReg .config v :: ops → d.fate = .completes →
    v.getLsbD 1 = true →
    ∃ t, step s = .next t ∧ t.sensor.tHighLimit = 0x6000 ∧ t.sensor.tLowLimit = 0x8000 ∧
      t.sensor.config &&& 0x0FFC = s.params.sensorConfigReset &&& 0x0FFC ∧ t.sensor.deviceId = s.sensor.deviceId ∧
      t.tmpc = s.tmpc ∧ t.params = s.params ∧ t.agenda = rest

/-- R52: each step the Sensor takes by itself has a next state, in which only the flag or the register it names is
changed, and TMPC and the Host are as they were. -/
def Obligations.SensorStepsChangeOnlyWhatTheyName : Prop :=
  ∀ (s : State) (rest : List Turn),
    (∀ e : SensorEvent, s.agenda = .sensor e :: rest →
      ∃ sn : Sensor, step s = .next { s with agenda := rest, sensor := sn } ∧
        (∀ v, e = .temp v → sn = { s.sensor with temp := v }) ∧
        ((∀ v, e ≠ .temp v) → sn = { s.sensor with config := sn.config } ∧
          ∀ k < 16, sn.config.getLsbD k =
            match e with
            | .highAlert => if k = 15 then true else s.sensor.config.getLsbD k
            | .lowAlert => if k = 14 then true else s.sensor.config.getLsbD k
            | .dataReady b => if k = 13 then b else s.sensor.config.getLsbD k
            | .eepromBusy b => if k = 12 then b else s.sensor.config.getLsbD k
            | .temp _ => s.sensor.config.getLsbD k))

/-- R47, R44, 93 U23 and U24: what stops a transaction, read or write, this Host's or another Host's, whatever its fate.  A
length other than two bytes is refused (R47), and an index in range that no register has is refused (93 U23).  That an
index above 0x0F is a fault and not a refusal, and the order of the three checks, are notes/assumptions/12.md's DESIGN
CHOICE. -/
def Obligations.IllFormedTransactionsStop : Prop :=
  ∀ (s : State) (d : Draw) (rest : List Turn) (tx : BusTx),
    (s.agenda = .host d :: rest ∧ ∃ ops, s.host.todo = .bus tx :: ops) ∨ s.agenda = .otherHost tx d :: rest →
    (tx.byteCount ≠ 2 → step s = .refused .transferLength) ∧
    (tx.byteCount = 2 → 0x0F < tx.addr.toNat → step s = .fault .sensorAddress) ∧
    (tx.byteCount = 2 → tx.addr.toNat ≤ 0x0F → (∀ r, regAddr s.params.sensorRegAddr r ≠ tx.addr) →
      step s = .refused .unnamedSensorRegister)

/-! ## The Host's sequences -/

/-- R88, R122, for the field ids 4 to 9 (id 10 starts a soft reset): a named setter (SensorRead, SETF, SensorWrite) whose three turns complete with nothing between them
changes exactly its own field among the mode fields of CONFIG: the field takes the value, the other mode bits keep theirs,
and no other sensor register changes. -/
def Obligations.SetterChangesOneModeField : Prop :=
  ∀ (s : State) (f : BitVec 4) (row : Field) (v : Half) (d1 d2 d3 : Draw) (rest : List Turn) (ops : List HostOp),
    s.AddrMapOk → 4 ≤ f.toNat → f.toNat ≤ 9 → fieldTable f.toNat = some row → v.toNat < 2 ^ row.width →
    d1.fate = .completes → d2.fate = .completes → d3.fate = .completes → d1.regs.config.getLsbD 1 = false →
    s.agenda = .host d1 :: .host d2 :: .host d3 :: rest → s.host.todo = setterSeq f v ++ ops →
    ∃ t c, Sys2Proof.core.run 3 s = .next t ∧ t.sensor = { s.sensor with config := c } ∧
      (decodeConfig c).member f.toNat = some v.toNat ∧
      (∀ k, 2 ≤ k → k ≤ 11 → ¬(row.msb + 1 - row.width ≤ k ∧ k ≤ row.msb) → c.getLsbD k = s.sensor.config.getLsbD k) ∧
      t.tmpc.err = false ∧ t.host.todo = ops ∧ t.agenda = rest

/-- R88, R109: a limit setter whose Celsius value is out of range writes nothing to the Sensor: C2CNT fails with RANGE,
and the write of the sequence is not made. -/
def Obligations.FailedConversionIsNotWritten : Prop :=
  ∀ (s : State) (r : SensorReg) (cin : Word) (d1 d2 : Draw) (rest : List Turn) (ops : List HostOp),
    cin.toInt < -16777472 ∨ 16776959 < cin.toInt →
    s.agenda = .host d1 :: .host d2 :: rest → s.host.todo = countSetterSeq r cin ++ ops →
    ∃ t, Sys2Proof.core.run 2 s = .next t ∧ t.sensor = s.sensor ∧ t.tmpc.res = s.tmpc.res ∧ t.tmpc.err = true ∧
      t.tmpc.ecode = 3 ∧ t.host.todo = ops

/-- R123: read1, read2, write1, write2.  This Host's setter of field f and another Host's change of a different mode field
f' interleave: both read CONFIG before either writes, and each writes the word it read with its own field replaced.  After
the first write f holds its new value v; after the second f holds its OLD value again, and only f' has changed.  The two
words read show bit 1 clear, so that neither write is a soft reset. -/
def Obligations.InterleavedReadModifyWriteLosesAChange : Prop :=
  ∀ (s : State) (f f' : BitVec 4) (row' : Field) (v v' w2 y : Half) (d1 dr2 d2 d3 d4 : Draw) (rest : List Turn)
    (ops : List HostOp), s.AddrMapOk →
    4 ≤ f.toNat → f.toNat ≤ 9 → 4 ≤ f'.toNat → f'.toNat ≤ 9 → f ≠ f' →
    (∀ row, fieldTable f.toNat = some row → v.toNat < 2 ^ row.width) →
    fieldTable f'.toNat = some row' → v'.toNat < 2 ^ row'.width →
    d1.fate = .completes → dr2.fate = .completes → d3.fate = .completes → d4.fate = .completes →
    d1.regs.config.getLsbD 1 = false → dr2.regs.config.getLsbD 1 = false →
    w2 = ((s.sensor.readReg .config d1.regs).2.readReg .config dr2.regs).1 →
    y = insertField w2 row'.msb row'.width v'.toNat →
    s.agenda = .host d1 :: .otherHost (.read (regAddr s.params.sensorRegAddr .config) 2) dr2 :: .host d2 :: .host d3 ::
      .otherHost (.write (regAddr s.params.sensorRegAddr .config) (wireBytes y)) d4 :: rest →
    s.host.todo = setterSeq f v ++ ops →
    ∃ t1 t2, Sys2Proof.core.run 4 s = .next t1 ∧ Sys2Proof.core.run 5 s = .next t2 ∧
      (decodeConfig t1.sensor.config).member f.toNat = some v.toNat ∧
      (decodeConfig t2.sensor.config).member f.toNat = (decodeConfig s.sensor.config).member f.toNat ∧
      (decodeConfig t2.sensor.config).member f'.toNat = some v'.toNat

/-- R88's temperature, limit and offset getters: SensorRead of the register, then CNT2C or CNT2F on the word read.  RES
is the register's count in Q16.16 degrees, and the Sensor is untouched. -/
def Obligations.TemperatureGetterConvertsTheCount : Prop :=
  ∀ (s : State) (r : SensorReg) (d1 d2 : Draw) (rest : List Turn) (ops : List HostOp), s.AddrMapOk → r ≠ .config →
    d1.fate = .completes → s.agenda = .host d1 :: .host d2 :: rest →
    (s.host.todo = celsiusGetterSeq r ++ ops →
      ∃ t, Sys2Proof.core.run 2 s = .next t ∧ t.tmpc.res.toInt = 512 * (s.sensor.get r).toInt ∧
        t.sensor = s.sensor ∧ t.tmpc.err = false ∧ t.host.todo = ops ∧ t.agenda = rest) ∧
    (s.host.todo = fahrenheitGetterSeq r ++ ops →
      ∃ t, Sys2Proof.core.run 2 s = .next t ∧
        -2 ≤ 5 * (t.tmpc.res.toInt - 2097152) - 4608 * (s.sensor.get r).toInt ∧
        5 * (t.tmpc.res.toInt - 2097152) - 4608 * (s.sensor.get r).toInt ≤ 2 ∧
        t.sensor = s.sensor ∧ t.tmpc.err = false ∧ t.host.todo = ops ∧ t.agenda = rest)

/-- R114 down to the first poll, with R113: four completing turns of the soft-reset sequence leave the limits at the
counts of +192 and -256 degrees Celsius and CONFIG's mode fields at those of `SENSOR_CONFIG_RESET`, start the deadline
TIMEOUT_MS from now, and leave the poll to be done.  RES holds the written word, with bit 1 set.  That the reset holds at
once after the write is notes/assumptions/10.md (DEDUCED), and the clock is 15.md's. -/
def Obligations.SoftResetSequenceResetsTheSensor : Prop :=
  ∀ (s : State) (d1 d2 d3 d4 : Draw) (rest : List Turn), s.AddrMapOk →
    d1.fate = .completes → d3.fate = .completes →
    s.agenda = .host d1 :: .host d2 :: .host d3 :: .host d4 :: rest → s.host.todo = softResetSeq →
    ∃ t, Sys2Proof.core.run 4 s = .next t ∧ t.sensor.tHighLimit = 0x6000 ∧ t.sensor.tLowLimit = 0x8000 ∧
      t.sensor.config &&& 0x0FFC = s.params.sensorConfigReset &&& 0x0FFC ∧ t.tmpc.err = false ∧
      t.tmpc.res.getLsbD 1 = true ∧ t.host.deadline = t.host.now + s.params.timeoutMs ∧ t.host.verdict = .pending ∧
      t.host.todo = pollSeq ∧ t.agenda = rest

/-- R114's test at the end of the loop's body: success when RES[0] is 0, else TimeoutError at the deadline, else the
next poll after POLL_MS.  That a turn adds its drawn time and a wait exactly POLL_MS to the Host's clock is
notes/assumptions/15.md's DESIGN CHOICE, and that a TimeoutError drops the steps the Host still had to take is the model's,
15.md and 13.md. -/
def Obligations.PollTestFollowsTheProtocol : Prop :=
  ∀ (s : State) (d : Draw) (rest : List Turn) (ops : List HostOp), s.agenda = .host d :: rest →
    s.host.todo = .pollCheck :: ops →
    ∃ h : HostAgent, step s = .next { s with agenda := rest, host := h } ∧
      h.w = s.host.w ∧ h.deadline = s.host.deadline ∧
      (s.tmpc.res.getLsbD 0 = false → h.verdict = .softResetDone ∧ h.todo = ops) ∧
      (s.tmpc.res.getLsbD 0 = true → s.host.deadline ≤ s.host.now + d.elapsed →
        h.verdict = .timeoutError ∧ h.todo = []) ∧
      (s.tmpc.res.getLsbD 0 = true → s.host.now + d.elapsed < s.host.deadline →
        h.verdict = s.host.verdict ∧ h.now = s.host.now + d.elapsed + s.params.pollMs ∧ h.todo = pollSeq ++ ops)

/-- R88 and R119: a named getter reads its field from the word of a fresh CONFIG read, and that read consumes the alert
flags whichever field was asked for. -/
def Obligations.GetterReadsItsFieldAndConsumesTheAlerts : Prop :=
  ∀ (s : State) (f : BitVec 4) (d1 d2 : Draw) (rest : List Turn) (ops : List HostOp), s.AddrMapOk → f.toNat ≤ 11 →
    d1.fate = .completes → s.agenda = .host d1 :: .host d2 :: rest → s.host.todo = getterSeq f ++ ops →
    ∃ t, Sys2Proof.core.run 2 s = .next t ∧ t.host.w &&& 0xCFFC = s.sensor.config &&& 0xCFFC ∧
      (decodeConfig t.host.w).member f.toNat = some t.tmpc.res.toNat ∧ t.tmpc.err = false ∧
      t.sensor = { s.sensor with config := t.host.w &&& 0x3FFF } ∧ t.host.todo = ops ∧ t.agenda = rest

/-- R88 with R72: a limit or offset setter whose Celsius value is in range writes the count C2CNT gives to its register
and to no other. -/
def Obligations.CountSetterWritesTheRoundedCount : Prop :=
  ∀ (s : State) (cin : Word) (d1 d2 : Draw) (rest : List Turn) (ops : List HostOp) (r : SensorReg), s.AddrMapOk →
    r = .tHighLimit ∨ r = .tLowLimit ∨ r = .tempOffset →
    -16777472 ≤ cin.toInt ∧ cin.toInt ≤ 16776959 → d2.fate = .completes →
    s.agenda = .host d1 :: .host d2 :: rest → s.host.todo = countSetterSeq r cin ++ ops →
    ∃ t, Sys2Proof.core.run 2 s = .next t ∧ t.tmpc.res.toInt = (t.sensor.get r).toInt ∧
      -256 ≤ 512 * (t.sensor.get r).toInt - cin.toInt ∧ 512 * (t.sensor.get r).toInt - cin.toInt ≤ 256 ∧
      (∀ r', r' ≠ r → t.sensor.get r' = s.sensor.get r') ∧ t.tmpc.err = false ∧ t.host.todo = ops ∧ t.agenda = rest

/-- R114: the soft-reset poll ends.  With every transaction completing and the deadline at most n poll intervals away,
n + 1 polls (three Host turns each) bring a success, or a TimeoutError at or after the deadline, whatever the Sensor
draws and however long the Host's turns take.  That `wait POLL_MS` adds exactly POLL_MS to the Host's clock is
notes/assumptions/15.md's DESIGN CHOICE. -/
def Obligations.SoftResetPollEnds : Prop :=
  ∀ (n : Nat) (s : State) (ds : List Draw), s.AddrMapOk → (∀ d ∈ ds, d.fate = .completes) →
    ds.length = 3 * (n + 1) → s.agenda = ds.map Turn.host → s.host.todo = pollSeq → s.host.verdict = .pending →
    s.host.deadline ≤ s.host.now + n * s.params.pollMs →
    ∃ t, Sys2Proof.core.run (3 * (n + 1)) s = .next t ∧
      (t.host.verdict = .softResetDone ∨ t.host.verdict = .timeoutError ∧ t.host.deadline ≤ t.host.now)

/-! ## Assembly -/

/-- R70, on lines with integer operands: a well-formed command's word disassembles to its mnemonic with its operand fields
in the order of rule R68, a word with an illegal OP disassembles as `.word`, and every 64-bit word assembles back from its
line.  A word with a legal OP and a reserved bit set gives `.word` too, notes/assumptions/18.md's DESIGN CHOICE; of those
only the last clause speaks. -/
def Obligations.DisassemblyAssemblesBack : Prop :=
  ((∀ c : Half, disassemble (encode (.cnt2c c 0 0 0)) = .cnt2c c.toNat) ∧
    (∀ c : Half, disassemble (encode (.cnt2f c 0 0 0)) = .cnt2f c.toNat) ∧
    (∀ cin : Word, disassemble (encode (.c2cnt cin 0 0)) = .c2cnt cin.toNat) ∧
    (∀ (c v : Half) (m : BitVec 4) (w : BitVec 5),
      disassemble (encode (.pack c v m w 0 0)) = .pack c.toNat v.toNat m.toNat w.toNat) ∧
    (∀ (c : Half) (m : BitVec 4) (w : BitVec 5),
      disassemble (encode (.unpack c m w 0 0 0)) = .unpack c.toNat m.toNat w.toNat) ∧
    (∀ (c : Half) (f : BitVec 4), disassemble (encode (.getf c f 0 0 0)) = .getf c.toNat f.toNat) ∧
    (∀ (c v : Half) (f : BitVec 4), disassemble (encode (.setf c v f 0 0)) = .setf c.toNat v.toNat f.toNat) ∧
    (∀ (cycle : Word) (avg : Half), disassemble (encode (.lat cycle avg 0)) = .lat cycle.toNat avg.toNat)) ∧
  (∀ c : Cmd, opField c = 0 ∨ 8 < (opField c).toNat → disassemble c = .word c.toNat) ∧
  ∀ c : Cmd, assemble (disassemble c) = some ⟨false, true, c⟩

/-- R70 on the written text: the mnemonic and the operand fields of a well-formed command printed in hex, `.word` for an
illegal OP, and for every 64-bit word the text reads back as that word.  The number of hex digits, their case and the
spaces are notes/assumptions/18.md's DESIGN CHOICE. -/
def Obligations.PrintedDisassemblyReadsBack : Prop :=
  ((∀ c : Half, disassembleText (encode (.cnt2c c 0 0 0)) = lineText "CNT2C" [hexText 4 c.toNat]) ∧
    (∀ c : Half, disassembleText (encode (.cnt2f c 0 0 0)) = lineText "CNT2F" [hexText 4 c.toNat]) ∧
    (∀ cin : Word, disassembleText (encode (.c2cnt cin 0 0)) = lineText "C2CNT" [hexText 8 cin.toNat]) ∧
    (∀ (c v : Half) (m : BitVec 4) (w : BitVec 5), disassembleText (encode (.pack c v m w 0 0)) =
      lineText "PACK" [hexText 4 c.toNat, hexText 4 v.toNat, hexText 1 m.toNat, hexText 2 w.toNat]) ∧
    (∀ (c : Half) (m : BitVec 4) (w : BitVec 5), disassembleText (encode (.unpack c m w 0 0 0)) =
      lineText "UNPACK" [hexText 4 c.toNat, hexText 1 m.toNat, hexText 2 w.toNat]) ∧
    (∀ (c : Half) (f : BitVec 4), disassembleText (encode (.getf c f 0 0 0)) =
      lineText "GETF" [hexText 4 c.toNat, hexText 1 f.toNat]) ∧
    (∀ (c v : Half) (f : BitVec 4), disassembleText (encode (.setf c v f 0 0)) =
      lineText "SETF" [hexText 4 c.toNat, hexText 4 v.toNat, hexText 1 f.toNat]) ∧
    (∀ (cycle : Word) (avg : Half), disassembleText (encode (.lat cycle avg 0)) =
      lineText "LAT" [hexText 8 cycle.toNat, hexText 4 avg.toNat])) ∧
  (∀ c : Cmd, opField c = 0 ∨ 8 < (opField c).toNat → disassembleText c = lineText ".word" [hexText 16 c.toNat]) ∧
  ∀ c : Cmd, assembleText (String.ofList (disassembleText c)) = some ⟨false, true, c⟩

/-- R68, on lines whose operands are integers: each form whose operands fit their fields is one edge with CMD_VALID = 1
and the word the form's row gives (a value that fits its field and fails the command's own check included), `IDLE` is one
edge with CMD_VALID = 0, and a line with an operand that does not fit its field is refused.  C2CNT's operand is taken
here as a signed 32-bit integer, the range on which the row says `word32(cin)`. -/
def Obligations.AssemblerEncodesOrRefuses : Prop :=
  (∀ n : Int, (-32768 ≤ n ∧ n ≤ 65535 →
      (∃ w : Cmd, assemble (.cnt2c n) = some ⟨false, true, w⟩ ∧ (w.toNat : Int) = 1 * 2 ^ 60 + n % 65536) ∧
      ∃ w : Cmd, assemble (.cnt2f n) = some ⟨false, true, w⟩ ∧ (w.toNat : Int) = 2 * 2 ^ 60 + n % 65536) ∧
    (¬(-32768 ≤ n ∧ n ≤ 65535) → assemble (.cnt2c n) = none ∧ assemble (.cnt2f n) = none)) ∧
  (∀ cin : Int, -2147483648 ≤ cin ∧ cin ≤ 2147483647 →
    ∃ w : Cmd, assemble (.c2cnt cin) = some ⟨false, true, w⟩ ∧ (w.toNat : Int) = 3 * 2 ^ 60 + cin % 4294967296) ∧
  (∀ c v m w : Int,
    ((0 ≤ c ∧ c < 65536) ∧ (0 ≤ v ∧ v < 65536) ∧ (0 ≤ m ∧ m ≤ 15) ∧ 0 ≤ w ∧ w ≤ 31 →
      ∃ x : Cmd, assemble (.pack c v m w) = some ⟨false, true, x⟩ ∧
        (x.toNat : Int) = 4 * 2 ^ 60 + (16 * w + m) * 2 ^ 48 + v * 2 ^ 32 + c) ∧
    (¬((0 ≤ c ∧ c < 65536) ∧ (0 ≤ v ∧ v < 65536) ∧ (0 ≤ m ∧ m ≤ 15) ∧ 0 ≤ w ∧ w ≤ 31) →
      assemble (.pack c v m w) = none)) ∧
  (∀ c m w : Int,
    ((0 ≤ c ∧ c < 65536) ∧ (0 ≤ m ∧ m ≤ 15) ∧ 0 ≤ w ∧ w ≤ 31 →
      ∃ x : Cmd, assemble (.unpack c m w) = some ⟨false, true, x⟩ ∧
        (x.toNat : Int) = 5 * 2 ^ 60 + (16 * w + m) * 2 ^ 48 + c) ∧
    (¬((0 ≤ c ∧ c < 65536) ∧ (0 ≤ m ∧ m ≤ 15) ∧ 0 ≤ w ∧ w ≤ 31) → assemble (.unpack c m w) = none)) ∧
  (∀ c f : Int,
    ((0 ≤ c ∧ c < 65536) ∧ 0 ≤ f ∧ f ≤ 15 →
      ∃ x : Cmd, assemble (.getf c f) = some ⟨false, true, x⟩ ∧ (x.toNat : Int) = 6 * 2 ^ 60 + f * 2 ^ 48 + c) ∧
    (¬((0 ≤ c ∧ c < 65536) ∧ 0 ≤ f ∧ f ≤ 15) → assemble (.getf c f) = none)) ∧
  (∀ c v f : Int,
    ((0 ≤ c ∧ c < 65536) ∧ (0 ≤ v ∧ v < 65536) ∧ 0 ≤ f ∧ f ≤ 15 →
      ∃ x : Cmd, assemble (.setf c v f) = some ⟨false, true, x⟩ ∧
        (x.toNat : Int) = 7 * 2 ^ 60 + f * 2 ^ 48 + v * 2 ^ 32 + c) ∧
    (¬((0 ≤ c ∧ c < 65536) ∧ (0 ≤ v ∧ v < 65536) ∧ 0 ≤ f ∧ f ≤ 15) → assemble (.setf c v f) = none)) ∧
  (∀ c a : Int,
    ((0 ≤ c ∧ c < 4294967296) ∧ 0 ≤ a ∧ a < 65536 →
      ∃ x : Cmd, assemble (.lat c a) = some ⟨false, true, x⟩ ∧ (x.toNat : Int) = 8 * 2 ^ 60 + a * 2 ^ 32 + c) ∧
    (¬((0 ≤ c ∧ c < 4294967296) ∧ 0 ≤ a ∧ a < 65536) → assemble (.lat c a) = none)) ∧
  (∀ w : Int, 0 ≤ w ∧ w < 18446744073709551616 →
    ∃ x : Cmd, assemble (.word w) = some ⟨false, true, x⟩ ∧ (x.toNat : Int) = w) ∧
  ∃ x : Cmd, assemble .idle = some ⟨false, false, x⟩
end

