-- ==== Sys2Proof/Laws/Assembler.lean ====
section
/-! SUPPORT. Reading back what the disassembler prints: hex digits, operand lists and mnemonics as text. -/

namespace Sys2Proof.Machine

/-! ## Hex digits -/

/-- The character of a hex digit. -/
theorem hexDigit_spec : ∀ d < 16,
    digitValue 16 (Char.ofNat (if d < 10 then 48 + d else 55 + d)) = some d ∧
      (Char.ofNat (if d < 10 then 48 + d else 55 + d)).isWhitespace = false ∧
      Char.ofNat (if d < 10 then 48 + d else 55 + d) ≠ ',' := by
  decide

/-- A printed number has no space and no comma in it. -/
theorem hexDigits_plain (k n : Nat) : ∀ c ∈ hexDigits k n, c.isWhitespace = false ∧ c ≠ ',' := by
  induction k with
  | zero => intro c h; cases h
  | succ k ih =>
    intro c h
    rcases List.mem_cons.mp h with rfl | h
    · exact (hexDigit_spec _ (Nat.mod_lt _ (by decide))).2
    · exact ih c h

theorem hexText_plain (k : Nat) (v : Int) : ∀ c ∈ hexText k v, c.isWhitespace = false ∧ c ≠ ',' := by
  intro c h
  rcases List.mem_cons.mp h with rfl | h
  · decide
  rcases List.mem_cons.mp h with rfl | h
  · decide
  · exact hexDigits_plain _ _ c h

/-- The digits printed for a number read as that number, modulo the digits' range. -/
theorem digitsFrom_hexDigits (k n acc : Nat) : digitsFrom 16 acc (hexDigits k n) = some (acc * 16 ^ k + n % 16 ^ k) := by
  induction k generalizing acc with
  | zero => simp [hexDigits, digitsFrom, Nat.mod_one]
  | succ k ih =>
    have hd := (hexDigit_spec (n / 16 ^ k % 16) (Nat.mod_lt _ (by decide))).1
    simp only [hexDigits, digitsFrom, hd, ih]
    congr 1
    have e : n % 16 ^ (k + 1) = 16 ^ k * (n / 16 ^ k % 16) + n % 16 ^ k := by
      rw [pow_succ, Nat.mod_mul]
      ring
    rw [e]
    ring

/-- A number printed with enough digits reads as itself. -/
theorem readNumber_hexText {k : Nat} {n : Nat} (hk : 0 < k) (hn : n < 16 ^ k) :
    readNumber (hexText k (n : Int)) = some (n : Int) := by
  obtain ⟨j, rfl⟩ : ∃ j, k = j + 1 := ⟨k - 1, by omega⟩
  have h := digitsFrom_hexDigits (j + 1) n 0
  rw [Nat.mod_eq_of_lt hn] at h
  simp only [hexText, readNumber, Int.toNat_natCast]
  have h' : readDigits 16 (hexDigits (j + 1) n) = some n := by
    rw [← show digitsFrom 16 0 (hexDigits (j + 1) n) = some n by simpa using h]
    rfl
  rw [h']
  rfl

theorem readCin_hexText (k : Nat) (v : Int) : readCin (hexText k v) = readNumber (hexText k v) := rfl

/-- A printed field id is no field's name. -/
theorem readFid_hexText (k : Nat) (v : Int) : readFid (hexText k v) = readNumber (hexText k v) := by
  have h : readFieldName (hexText k v) = none := by
    rw [readFieldName, List.find?_eq_none]
    intro f _ he
    have hh : f.text.toList.head? = some '0' := congrArg List.head? (beq_iff_eq.mp he)
    revert hh
    cases f <;> decide
  rw [readFid, h]

/-! ## Words, spaces and commas -/

theorem dropWhile_space {w : List Char} {c : Char} {cs : List Char} (h : w = c :: cs) (hc : c.isWhitespace = false) :
    w.dropWhile Char.isWhitespace = w := by
  subst h
  rw [List.dropWhile_cons_of_neg (by simp [hc])]

/-- A text whose first and last characters are no spaces is trimmed to itself. -/
theorem trimText_of_ends {w : List Char} (h1 : ∀ c ∈ w.head?, c.isWhitespace = false)
    (h2 : ∀ c ∈ w.getLast?, c.isWhitespace = false) : trimText w = w := by
  have key : ∀ x : List Char, (∀ c ∈ x.head?, c.isWhitespace = false) → x.dropWhile Char.isWhitespace = x := by
    intro x hx
    cases x with
    | nil => rfl
    | cons c cs => exact dropWhile_space rfl (hx c rfl)
  rw [trimText, key w h1, key w.reverse (by rwa [List.head?_reverse]), List.reverse_reverse]

/-- One leading space is trimmed. -/
theorem trimText_space (w : List Char) : trimText (' ' :: w) = trimText w := by
  have : (' ' :: w).dropWhile Char.isWhitespace = w.dropWhile Char.isWhitespace :=
    List.dropWhile_cons_of_pos (by decide)
  rw [trimText, trimText, this]

/-- A word is split at the comma after it. -/
theorem splitText_word {w : List Char} (h : ∀ c ∈ w, c ≠ ',') (rest : List Char) :
    splitText ',' (w ++ ',' :: rest) = w :: splitText ',' rest := by
  induction w with
  | nil => simp [splitText]
  | cons c cs ih =>
    have hc : c ≠ ',' := h c (by simp)
    rw [List.cons_append, splitText, if_neg hc, ih (fun d hd => h d (by simp [hd]))]

/-- A word with no comma is one piece. -/
theorem splitText_last {w : List Char} (h : ∀ c ∈ w, c ≠ ',') : splitText ',' w = [w] := by
  induction w with
  | nil => rfl
  | cons c cs ih =>
    have hc : c ≠ ',' := h c (by simp)
    rw [splitText, if_neg hc, ih (fun d hd => h d (by simp [hd]))]

/-- A word of an operand list: nonempty, with no space and no comma. -/
abbrev PlainWord (w : List Char) : Prop := w ≠ [] ∧ ∀ c ∈ w, c.isWhitespace = false ∧ c ≠ ','

theorem plainWord_hexText (k : Nat) (v : Int) : PlainWord (hexText k v) := ⟨by simp [hexText], hexText_plain k v⟩

theorem trimText_plain {w : List Char} (h : PlainWord w) : trimText w = w :=
  trimText_of_ends (fun c hc => (h.2 c (List.mem_of_mem_head? hc)).1) (fun c hc => (h.2 c (List.mem_of_getLast? hc)).1)

/-- The operands a line is printed with, joined by comma and space. -/
def joinOps (ws : List (List Char)) : List Char := List.intercalate [',', ' '] ws

theorem joinOps_one (w : List Char) : joinOps [w] = w := by simp [joinOps, List.intercalate]

theorem joinOps_cons (w w' : List Char) (ws : List (List Char)) :
    joinOps (w :: w' :: ws) = w ++ ',' :: ' ' :: joinOps (w' :: ws) := by
  simp [joinOps, List.intercalate]

theorem joinOps_ends {ws : List (List Char)} (h : ∀ w ∈ ws, PlainWord w) :
    (∀ c ∈ (joinOps ws).head?, c.isWhitespace = false) ∧ ∀ c ∈ (joinOps ws).getLast?, c.isWhitespace = false := by
  induction ws with
  | nil => simp [joinOps, List.intercalate]
  | cons w ws ih =>
    obtain ⟨hne, hp⟩ := h w (by simp)
    cases ws with
    | nil =>
      rw [joinOps_one]
      exact ⟨fun c hc => (hp c (List.mem_of_mem_head? hc)).1, fun c hc => (hp c (List.mem_of_getLast? hc)).1⟩
    | cons w' ws =>
      obtain ⟨-, i2⟩ := ih (fun x hx => h x (by simp [hx]))
      have hne' : joinOps (w' :: ws) ≠ [] := by
        have hw' := (h w' (by simp)).1
        cases ws with
        | nil => rwa [joinOps_one]
        | cons x xs => rw [joinOps_cons]; simp
      rw [joinOps_cons]
      refine ⟨fun c hc => ?_, fun c hc => ?_⟩
      · rw [List.head?_append_of_ne_nil _ hne] at hc
        exact (hp c (List.mem_of_mem_head? hc)).1
      · rw [List.getLast?_append_of_ne_nil _ (by simp)] at hc
        rw [List.getLast?_cons_cons, List.getLast?_cons_of_ne_nil hne'] at hc
        exact i2 c hc

/-- Splitting and trimming a printed operand list gives its words back. -/
theorem splitText_joinOps {ws : List (List Char)} (hne : ws ≠ []) (h : ∀ w ∈ ws, PlainWord w) :
    (splitText ',' (joinOps ws)).map trimText = ws := by
  induction ws with
  | nil => exact absurd rfl hne
  | cons w ws ih =>
    have hw := h w (by simp)
    cases ws with
    | nil => rw [joinOps_one, splitText_last (fun c hc => (hw.2 c hc).2), List.map_cons, trimText_plain hw, List.map_nil]
    | cons w' ws =>
      have i := ih (by simp) (fun x hx => h x (by simp [hx]))
      rw [joinOps_cons, splitText_word (fun c hc => (hw.2 c hc).2), List.map_cons, trimText_plain hw]
      cases hsp : splitText ',' (joinOps (w' :: ws)) with
      | nil => rw [hsp] at i; cases i
      | cons x xs =>
        have hs : splitText ',' (' ' :: joinOps (w' :: ws)) = (' ' :: x) :: xs := by
          rw [splitText, if_neg (by decide), hsp]
        rw [hsp, List.map_cons] at i
        rw [hs, List.map_cons, trimText_space, i]

/-- The operands of a printed line. -/
theorem operandTexts_joinOps {ws : List (List Char)} (hne : ws ≠ []) (h : ∀ w ∈ ws, PlainWord w) :
    operandTexts (' ' :: joinOps ws) = ws := by
  have ht : trimText (' ' :: joinOps ws) = joinOps ws := by
    rw [trimText_space, trimText_of_ends (joinOps_ends h).1 (joinOps_ends h).2]
  have hj : joinOps ws ≠ [] := by
    intro he
    have := splitText_joinOps hne h
    rw [he] at this
    obtain ⟨w, ws', rfl⟩ := List.exists_cons_of_ne_nil hne
    have hw : ([] : List Char) = w := (List.cons.inj this).1
    exact (h w (by simp)).1 hw.symm
  obtain ⟨c, cs, hc⟩ := List.exists_cons_of_ne_nil hj
  have := splitText_joinOps hne h
  rw [operandTexts, ht, hc]
  rw [hc] at this
  exact this

/-- A line printed as a mnemonic and operands is read as that mnemonic with those operands. -/
theorem readLine_lineText {m : String} {ws : List (List Char)} (hm : PlainWord m.toList) (hne : ws ≠ [])
    (h : ∀ w ∈ ws, PlainWord w) {l : AsmLine} (hl : readCommand m.toList ws = some l) :
    readLine (String.ofList (lineText m ws)) = some l := by
  have hj := joinOps_ends h
  have hlast : ∀ c ∈ (lineText m ws).getLast?, c.isWhitespace = false := by
    intro c hc
    obtain ⟨w, ws', rfl⟩ := List.exists_cons_of_ne_nil hne
    have hne' : joinOps (w :: ws') ≠ [] := by
      have hw := (h w (by simp)).1
      cases ws' with
      | nil => rwa [joinOps_one]
      | cons x xs => rw [joinOps_cons]; simp
    rw [lineText, List.getLast?_append_of_ne_nil _ (by simp)] at hc
    exact hj.2 c (by rwa [List.getLast?_cons_of_ne_nil (by exact hne')] at hc)
  have hhead : ∀ c ∈ (lineText m ws).head?, c.isWhitespace = false := by
    intro c hc
    rw [lineText, List.head?_append_of_ne_nil _ hm.1] at hc
    exact (hm.2 c (List.mem_of_mem_head? hc)).1
  have hsp : (lineText m ws).span (fun c => !c.isWhitespace) = (m.toList, ' ' :: joinOps ws) := by
    rw [List.span_eq_takeWhile_dropWhile, lineText, List.takeWhile_append_of_pos (fun c hc => by simp [(hm.2 c hc).1]),
      List.dropWhile_append_of_pos (fun c hc => by simp [(hm.2 c hc).1])]
    simp only [List.takeWhile_cons, List.dropWhile_cons]
    simp [joinOps]
  simp only [readLine, String.toList_ofList, trimText_of_ends hhead hlast, hsp, operandTexts_joinOps hne h, hl]

end Sys2Proof.Machine
end

