-- ==== Sys2Proof/Laws/Primitives.lean ====
section
/-! SUPPORT. What the primitives of spec/00_scope.md rule R11 do: the field operations bit by bit, and the rounding
division as inequalities. -/

namespace Sys2Proof.Machine

/-! ## Bit fields -/

theorem geometryOk_iff (msb w : Nat) : geometryOk msb w = true ↔ 1 ≤ w ∧ w ≤ msb + 1 := by
  simp [geometryOk]

/-- `fmask` has ones exactly in bits msb down to msb - w + 1. -/
theorem getLsbD_fmask {msb w : Nat} (hw : w ≤ msb + 1) (hm : msb ≤ 15) (k : Nat) :
    (fmask msb w).getLsbD k = decide (msb + 1 - w ≤ k ∧ k ≤ msb) := by
  rw [fmask, BitVec.getLsbD_ofNat, Nat.testBit_mul_two_pow, Nat.testBit_two_pow_sub_one]
  rw [Bool.eq_iff_iff]
  simp
  omega

/-- A field's value, bit by bit. -/
theorem getLsbD_extractField {msb w : Nat} (hw : w ≤ msb + 1) (hm : msb ≤ 15) (c : Half) (k : Nat) :
    (extractField c msb w).getLsbD k = (decide (k < w) && c.getLsbD (msb + 1 - w + k)) := by
  rw [extractField, BitVec.getLsbD_ofNat, Nat.testBit_div_two_pow]
  have h : (c &&& fmask msb w).toNat.testBit (k + (msb + 1 - w)) = (c &&& fmask msb w).getLsbD (k + (msb + 1 - w)) := rfl
  rw [h, BitVec.getLsbD_and, getLsbD_fmask hw hm, Nat.add_comm k]
  rcases Nat.lt_or_ge k w with hk | hk
  · have h16 : k < 16 := by omega
    have hin : msb + 1 - w ≤ msb + 1 - w + k ∧ msb + 1 - w + k ≤ msb := by omega
    simp [hk, h16, hin]
  · have hout : ¬(msb + 1 - w ≤ msb + 1 - w + k ∧ msb + 1 - w + k ≤ msb) := by omega
    have hk' : ¬k < w := by omega
    simp only [hk', hout, decide_false, Bool.and_false, Bool.false_and]

/-- A replaced field, bit by bit. -/
theorem getLsbD_insertField {msb w v : Nat} (hw : w ≤ msb + 1) (hm : msb ≤ 15) (hv : v < 2 ^ w) (c : Half) (k : Nat) :
    (insertField c msb w v).getLsbD k =
      if msb + 1 - w ≤ k ∧ k ≤ msb then v.testBit (k - (msb + 1 - w)) else c.getLsbD k := by
  rw [insertField, BitVec.getLsbD_or, BitVec.getLsbD_and, BitVec.getLsbD_not, getLsbD_fmask hw hm,
    BitVec.getLsbD_ofNat, Nat.testBit_mul_two_pow]
  split
  · rename_i h
    have hk : k < 16 := by omega
    simp [h, hk]
  · rename_i h
    rcases Nat.lt_or_ge k 16 with hk | hk
    · rcases Nat.lt_or_ge k (msb + 1 - w) with hlo | hlo
      · have hn : ¬(msb + 1 - w ≤ k) := by omega
        simp [hk, hn]
      · have hhi : w ≤ k - (msb + 1 - w) := by omega
        have hz : v.testBit (k - (msb + 1 - w)) = false :=
          Nat.testBit_lt_two_pow (Nat.lt_of_lt_of_le hv (Nat.pow_le_pow_right (by decide) hhi))
        have hgt : msb < k := by omega
        simp [hk, hz, hgt]
    · have hk' : ¬k < 16 := by omega
      have hc : c.getLsbD k = false := BitVec.getLsbD_of_ge c k hk
      simp [hk', hc]

/-! ## Rounding -/

/-- `fdiv` is division rounding toward minus infinity. -/
theorem fdiv_spec (a : Int) {b : Int} (hb : 0 < b) : b * fdiv a b ≤ a ∧ a < b * fdiv a b + b := by
  have e : fdiv a b = a / b := Int.fdiv_eq_ediv_of_nonneg a hb.le
  rw [e]
  have h1 := Int.emod_add_mul_ediv a b
  have h2 := Int.emod_nonneg a hb.ne'
  have h3 := Int.emod_lt_of_pos a hb
  constructor <;> omega

/-- `rhe(n, 9)` is a nearest integer to n / 512, and on a tie the even one. -/
theorem rhe_nine_spec (n : Int) :
    (-256 ≤ 512 * rhe n 9 - n ∧ 512 * rhe n 9 - n ≤ 256) ∧
      (512 * rhe n 9 - n = 256 ∨ 512 * rhe n 9 - n = -256 → rhe n 9 % 2 = 0) := by
  have h := fdiv_spec n (b := 512) (by decide)
  simp only [rhe]
  norm_num only
  split_ifs <;> omega

/-- The nearest integer with ties to even is unique. -/
theorem rhe_nine_unique {n q : Int} (h1 : -256 ≤ 512 * q - n) (h2 : 512 * q - n ≤ 256)
    (h3 : 512 * q - n = 256 ∨ 512 * q - n = -256 → q % 2 = 0) : rhe n 9 = q := by
  have h := rhe_nine_spec n
  omega

/-- `word32` loses nothing in the range of a 32-bit word. -/
theorem toInt_word32 {x : Int} (h1 : -2147483648 ≤ x) (h2 : x ≤ 2147483647) : (word32 x).toInt = x := by
  rw [word32, BitVec.toInt_ofInt]
  exact Int.bmod_eq_of_le (by omega) (by omega)

/-- The range of a count. -/
theorem count_range (c : Half) : -32768 ≤ c.toInt ∧ c.toInt ≤ 32767 := by
  have h1 := BitVec.le_toInt c
  have h2 := BitVec.toInt_lt (x := c)
  norm_num at h1 h2
  omega

end Sys2Proof.Machine
end

