-- ==== Sys2Proof/Laws/Results.lean ====
section
/-! SUPPORT. What each command's rule returns, one lemma per outcome, so that no later proof unfolds a result function. -/

namespace Sys2Proof.Machine

/-! ## The converter -/

theorem cnt2cResult_eq (count : Half) : cnt2cResult count = .ok (word32 (512 * count.toInt)) := rfl

theorem cnt2fResult_eq (count : Half) :
    cnt2fResult count = .ok (word32 (fdiv (4608 * count.toInt + 2) 5 + 2097152)) := rfl

theorem c2cntResult_ok {cin : Word} (h1 : -32768 ≤ rhe cin.toInt 9) (h2 : rhe cin.toInt 9 ≤ 32767) :
    c2cntResult cin = .ok (word32 (rhe cin.toInt 9)) :=
  if_neg (show ¬(rhe cin.toInt 9 < -32768 ∨ rhe cin.toInt 9 > 32767) by omega)

theorem c2cntResult_range {cin : Word} (h : rhe cin.toInt 9 < -32768 ∨ 32767 < rhe cin.toInt 9) :
    c2cntResult cin = .fail .range :=
  if_pos h

/-! ## Bit fields -/

theorem insertChecked_ok (c : Half) (msb : Nat) {w v : Nat} (h : v < 2 ^ w) :
    insertChecked c msb w v = .ok (zext32 (insertField c msb w v)) :=
  if_neg (Nat.not_le.mpr h)

theorem insertChecked_wide (c : Half) (msb : Nat) {w v : Nat} (h : 2 ^ w ≤ v) :
    insertChecked c msb w v = .fail .valueWide :=
  if_pos h

theorem packResult_legal (c v : Half) {m : BitVec 4} {w : BitVec 5} (h : 1 ≤ w.toNat ∧ w.toNat ≤ m.toNat + 1) :
    packResult c v m w = insertChecked c m.toNat w.toNat v.toNat :=
  if_pos ((geometryOk_iff _ _).2 h)

theorem packResult_geometry (c v : Half) {m : BitVec 4} {w : BitVec 5} (h : w.toNat = 0 ∨ m.toNat + 1 < w.toNat) :
    packResult c v m w = .fail .geometry :=
  if_neg (fun hg => by have := (geometryOk_iff m.toNat w.toNat).1 hg; omega)

theorem unpackResult_legal (c : Half) {m : BitVec 4} {w : BitVec 5} (h : 1 ≤ w.toNat ∧ w.toNat ≤ m.toNat + 1) :
    unpackResult c m w = .ok (zext32 (extractField c m.toNat w.toNat)) :=
  if_pos ((geometryOk_iff _ _).2 h)

theorem unpackResult_geometry (c : Half) {m : BitVec 4} {w : BitVec 5} (h : w.toNat = 0 ∨ m.toNat + 1 < w.toNat) :
    unpackResult c m w = .fail .geometry :=
  if_neg (fun hg => by have := (geometryOk_iff m.toNat w.toNat).1 hg; omega)

/-- Every field of the table is a legal geometry inside the word. -/
theorem fieldTable_legal {fid : Nat} {f : Field} (h : fieldTable fid = some f) :
    1 ≤ f.width ∧ f.width ≤ f.msb + 1 ∧ f.msb ≤ 15 := by
  unfold fieldTable at h
  split at h <;> cases h <;> decide

/-- The defined ids. -/
theorem fieldTable_isSome (fid : Nat) : (fieldTable fid).isSome = decide (fid ≤ 11) := by
  rcases Nat.lt_or_ge fid 12 with h | h
  · interval_cases fid <;> rfl
  · have h' : ¬fid ≤ 11 := by omega
    unfold fieldTable
    split <;> simp_all

theorem getfResult_some (c : Half) {fid : BitVec 4} {f : Field} (h : fieldTable fid.toNat = some f) :
    getfResult c fid = .ok (zext32 (extractField c f.msb f.width)) := by
  simp only [getfResult, fidOperand, h]

theorem getfResult_none (c : Half) {fid : BitVec 4} (h : fieldTable fid.toNat = none) :
    getfResult c fid = .fail .badField := by
  simp only [getfResult, fidOperand, h]

theorem setfResult_writable (c v : Half) {fid : BitVec 4} {f : Field} (h : fieldTable fid.toNat = some f)
    (hw : f.writable = true) : setfResult c v fid = insertChecked c f.msb f.width v.toNat := by
  simp only [setfResult, fidOperand, h, hw, if_true]
  rfl

theorem setfResult_readOnly (c v : Half) {fid : BitVec 4} {f : Field} (h : fieldTable fid.toNat = some f)
    (hw : f.writable = false) : setfResult c v fid = .fail .readOnly := by
  simp only [setfResult, fidOperand, h, hw]
  rfl

theorem setfResult_none (c v : Half) {fid : BitVec 4} (h : fieldTable fid.toNat = none) :
    setfResult c v fid = .fail .badField := by
  simp only [setfResult, fidOperand, h]

@[simp] theorem getLsbD_zext32 (x : Half) (k : Nat) : (zext32 x).getLsbD k = x.getLsbD k := by
  rw [zext32, BitVec.getLsbD_setWidth]
  rcases Nat.lt_or_ge k 32 with h | h
  · simp [h]
  · rw [BitVec.getLsbD_of_ge x k (by omega), Bool.and_false]

/-! ## The ROM -/

theorem romTable_length (l : LatRom) : (romTable l).length = 32 := rfl

theorem latResult_ok (l : LatRom) {cycle : Word} {avg : Half} (hc : cycle.toNat ≤ 7) (ha : avg.toNat ≤ 3) :
    latResult l cycle avg = .ok (zext32 (romRead l (BitVec.ofNat 5 (4 * cycle.toNat + avg.toNat)))) :=
  if_neg (show ¬(cycle.toNat > 7 ∨ avg.toNat > 3) by omega)

theorem latResult_index (l : LatRom) {cycle : Word} {avg : Half} (h : 7 < cycle.toNat ∨ 3 < avg.toNat) :
    latResult l cycle avg = .fail .latIndex :=
  if_pos h

end Sys2Proof.Machine
end

