-- ==== Sys2Proof/Laws/BitFields.lean ====
section
/-! SUPPORT. What reading and replacing a field do to each other, and the parallel CONFIG decoder as field reads. -/

namespace Sys2Proof.Machine

/-! ## Widening to RES and back -/

theorem zext32_toNat (x : Half) : (zext32 x).toNat = x.toNat := by
  rw [zext32, BitVec.toNat_setWidth, Nat.mod_eq_of_lt]
  have := x.isLt
  omega

/-- RES[15:0] of a zero-extended word is the word. -/
theorem aLo_zext32 (x : Half) : aLo (zext32 x) = x := by
  apply BitVec.eq_of_getLsbD_eq
  intro i hi
  simp only [aLo, BitVec.getLsbD_extractLsb', getLsbD_zext32, hi, decide_true, Bool.true_and, Nat.zero_add]

/-! ## One field -/

/-- Reading a field that was just replaced gives the value. -/
theorem extractField_insertField {msb w v : Nat} (hw : w ≤ msb + 1) (hm : msb ≤ 15) (hv : v < 2 ^ w) (c : Half) :
    extractField (insertField c msb w v) msb w = BitVec.ofNat 16 v := by
  apply BitVec.eq_of_getLsbD_eq
  intro i hi
  rw [getLsbD_extractField hw hm, getLsbD_insertField hw hm hv, BitVec.getLsbD_ofNat]
  rcases Nat.lt_or_ge i w with h | h
  · rw [if_pos (by omega)]
    simp [h, hi]
  · have : v.testBit i = false := Nat.testBit_lt_two_pow (lt_of_lt_of_le hv (Nat.pow_le_pow_right (by decide) h))
    have h' : ¬i < w := by omega
    simp [h', this]

/-- A field's value fits its width. -/
theorem extractField_lt (c : Half) {msb w : Nat} (hw : w ≤ msb + 1) (hm : msb ≤ 15) :
    (extractField c msb w).toNat < 2 ^ w := by
  apply Nat.lt_pow_two_of_testBit
  intro i hi
  have := getLsbD_extractField hw hm c i
  rw [decide_eq_false (by omega)] at this
  exact this

/-- Replacing a field by its own value changes nothing. -/
theorem insertField_extractField (c : Half) {msb w : Nat} (hw : w ≤ msb + 1) (hm : msb ≤ 15) :
    insertField c msb w (extractField c msb w).toNat = c := by
  apply BitVec.eq_of_getLsbD_eq
  intro i hi
  rw [getLsbD_insertField hw hm (extractField_lt c hw hm)]
  split
  · rename_i h
    have := getLsbD_extractField hw hm c (i - (msb + 1 - w))
    rw [decide_eq_true (by omega), Bool.true_and, show msb + 1 - w + (i - (msb + 1 - w)) = i by omega] at this
    exact this
  · rfl

/-! ## The parallel decoder -/

/-- A slice of a word is the field read at the same place. -/
theorem extractField_toNat (c : Half) {msb w : Nat} (x : BitVec w) (hw : w ≤ msb + 1) (hm : msb ≤ 15)
    (e : x = c.extractLsb' (msb + 1 - w) w) : x.toNat = (extractField c msb w).toNat := by
  have : x.setWidth 16 = extractField c msb w := by
    apply BitVec.eq_of_getLsbD_eq
    intro i hi
    rw [getLsbD_extractField hw hm, e, BitVec.getLsbD_setWidth, BitVec.getLsbD_extractLsb']
    simp [hi]
  rw [← this, BitVec.toNat_setWidth, Nat.mod_eq_of_lt]
  exact lt_of_lt_of_le x.isLt (Nat.pow_le_pow_right (by decide) (by omega))

theorem extractField_bit (c : Half) {k : Nat} (hk : k ≤ 15) : (c.getLsbD k).toNat = (extractField c k 1).toNat := by
  rw [← extractField_toNat c (BitVec.ofBool (c.getLsbD k)) (by omega) hk]
  · cases c.getLsbD k <;> rfl
  · apply BitVec.eq_of_getLsbD_eq
    intro i hi
    have : i = 0 := by omega
    subst this
    simp

/-- Every member of `decodeConfig` is the field the table gives for its id (R82). -/
theorem member_eq_extractField {fid : Nat} {f : Field} (h : fieldTable fid = some f) (c : Half) :
    (decodeConfig c).member fid = some (extractField c f.msb f.width).toNat := by
  unfold fieldTable at h
  split at h <;> cases h <;> simp only [ConfigFields.member, decodeConfig]
  all_goals
    first
    | exact congrArg some (extractField_bit c (by decide))
    | exact congrArg some (extractField_toNat c _ (by decide) (by decide) rfl)
    | skip
  rw [← extractField_toNat c (msb := 15) (w := 2) (BitVec.ofBool (c.getLsbD 15) ++ BitVec.ofBool (c.getLsbD 14))
    (by decide) (by decide)]
  · cases c.getLsbD 15 <;> cases c.getLsbD 14 <;> rfl
  · apply BitVec.eq_of_getLsbD_eq
    intro i hi
    have hb : ∀ a b : Bool, (BitVec.ofBool a ++ BitVec.ofBool b).getLsbD 0 = b ∧
        (BitVec.ofBool a ++ BitVec.ofBool b).getLsbD 1 = a := by decide
    obtain rfl | rfl : i = 0 ∨ i = 1 := by omega
    · rw [(hb _ _).1]
      simp
    · rw [(hb _ _).2]
      simp

/-- The member that was just replaced reads as the value. -/
theorem member_insertField {fid : Nat} {f : Field} (h : fieldTable fid = some f) {v : Nat} (hv : v < 2 ^ f.width)
    (c : Half) : (decodeConfig (insertField c f.msb f.width v)).member fid = some v := by
  obtain ⟨-, h2, h3⟩ := fieldTable_legal h
  rw [member_eq_extractField h, extractField_insertField h2 h3 hv, BitVec.toNat_ofNat, Nat.mod_eq_of_lt]
  exact lt_of_lt_of_le hv (Nat.pow_le_pow_right (by decide) (by omega))

/-- Two words that agree on a field's bits agree on its member. -/
theorem member_congr {fid : Nat} {f : Field} (h : fieldTable fid = some f) {c c' : Half}
    (hc : ∀ k, f.msb + 1 - f.width ≤ k → k ≤ f.msb → c.getLsbD k = c'.getLsbD k) :
    (decodeConfig c).member fid = (decodeConfig c').member fid := by
  obtain ⟨-, h2, h3⟩ := fieldTable_legal h
  rw [member_eq_extractField h, member_eq_extractField h]
  congr 2
  apply BitVec.eq_of_getLsbD_eq
  intro i _
  rw [getLsbD_extractField h2 h3, getLsbD_extractField h2 h3]
  by_cases hi : i < f.width
  · rw [hc _ (by omega) (by omega)]
  · simp [hi]

end Sys2Proof.Machine
end

