-- ==== Sys2Proof/Laws/Encoding.lean ====
section
/-! SUPPORT. The command word as four fields: each field of `enc` read back, `enc` of a word's own fields, and the
bitwise AND of two words field by field (the shape of every RSVD_MASK test). -/

namespace Sys2Proof

/-! ## Slices of a concatenation -/

theorem extract_low {m n : Nat} (x : BitVec m) (y : BitVec n) : (x ++ y).extractLsb' 0 n = y :=
  BitVec.extractLsb'_append_eq_right

theorem extract_high {m n : Nat} (x : BitVec m) (y : BitVec n) : (x ++ y).extractLsb' n m = x :=
  BitVec.extractLsb'_append_eq_left

theorem extract_above {m n start len : Nat} (x : BitVec m) (y : BitVec n) (h : n ≤ start) :
    (x ++ y).extractLsb' start len = x.extractLsb' (start - n) len :=
  BitVec.extractLsb'_append_eq_of_le h

/-! ## Fields of an encoded word -/

@[simp] theorem aField_enc (op : BitVec 4) (p : BitVec 12) (b : Half) (a : Word) : aField (enc op p b a) = a :=
  extract_low (op ++ p ++ b) a

@[simp] theorem bField_enc (op : BitVec 4) (p : BitVec 12) (b : Half) (a : Word) : bField (enc op p b a) = b :=
  (extract_above (op ++ p ++ b) a (start := 32) (len := 16) (by decide)).trans (extract_low (op ++ p) b)

@[simp] theorem pField_enc (op : BitVec 4) (p : BitVec 12) (b : Half) (a : Word) : pField (enc op p b a) = p :=
  (extract_above (op ++ p ++ b) a (start := 48) (len := 12) (by decide)).trans
    ((extract_above (op ++ p) b (start := 16) (len := 12) (by decide)).trans (extract_low op p))

@[simp] theorem opField_enc (op : BitVec 4) (p : BitVec 12) (b : Half) (a : Word) : opField (enc op p b a) = op :=
  (extract_above (op ++ p ++ b) a (start := 60) (len := 4) (by decide)).trans
    ((extract_above (op ++ p) b (start := 28) (len := 4) (by decide)).trans (extract_high op p))

/-! ## Parts of A and of P -/

@[simp] theorem aLo_append (h l : Half) : aLo (h ++ l) = l := extract_low h l

@[simp] theorem aHi_append (h l : Half) : aHi (h ++ l) = h := extract_high h l

@[simp] theorem pLow_geometry (h : BitVec 3) (w : BitVec 5) (m : BitVec 4) : pLow (h ++ w ++ m) = m :=
  extract_low (h ++ w) m

@[simp] theorem pWidth_geometry (h : BitVec 3) (w : BitVec 5) (m : BitVec 4) : pWidth (h ++ w ++ m) = w :=
  (extract_above (h ++ w) m (start := 4) (len := 5) (by decide)).trans (extract_low h w)

@[simp] theorem pHi3_geometry (h : BitVec 3) (w : BitVec 5) (m : BitVec 4) : pHi3 (h ++ w ++ m) = h :=
  (extract_above (h ++ w) m (start := 9) (len := 3) (by decide)).trans (extract_high h w)

@[simp] theorem pLow_fid (h : BitVec 8) (f : BitVec 4) : pLow (h ++ f) = f := extract_low h f

@[simp] theorem pHi8_fid (h : BitVec 8) (f : BitVec 4) : pHi8 (h ++ f) = h := extract_high h f

/-! ## A word from its own parts -/

theorem enc_fields (c : Cmd) : enc (opField c) (pField c) (bField c) (aField c) = c := by
  apply BitVec.eq_of_getLsbD_eq
  intro i hi
  simp only [enc, opField, pField, bField, aField, BitVec.getLsbD_append, BitVec.getLsbD_extractLsb']
  by_cases h1 : i < 32
  · simp [h1]
  · by_cases h2 : i - 32 < 16
    · have e2 : 32 + (i - 32) = i := by omega
      simp [h1, h2, e2]
    · by_cases h3 : i - 32 - 16 < 12
      · have e3 : 48 + (i - 32 - 16) = i := by omega
        simp [h1, h2, h3, e3]
      · have e4 : 60 + (i - 32 - 16 - 12) = i := by omega
        have h4 : i - 32 - 16 - 12 < 4 := by omega
        simp [h1, h2, h3, h4, e4]

theorem aHi_aLo (a : Word) : aHi a ++ aLo a = a := by
  apply BitVec.eq_of_getLsbD_eq
  intro i hi
  simp only [aHi, aLo, BitVec.getLsbD_append, BitVec.getLsbD_extractLsb']
  by_cases h : i < 16
  · simp [h]
  · have e : 16 + (i - 16) = i := by omega
    have h' : i - 16 < 16 := by omega
    simp [h, h', e]

theorem geometry_parts (p : BitVec 12) : pHi3 p ++ pWidth p ++ pLow p = p := by
  apply BitVec.eq_of_getLsbD_eq
  intro i hi
  simp only [pHi3, pWidth, pLow, BitVec.getLsbD_append, BitVec.getLsbD_extractLsb']
  by_cases h : i < 4
  · simp [h]
  · by_cases h2 : i - 4 < 5
    · have e : 4 + (i - 4) = i := by omega
      simp [h, h2, e]
    · have e : 9 + (i - 4 - 5) = i := by omega
      have h3 : i - 4 - 5 < 3 := by omega
      simp [h, h2, h3, e]

theorem fid_parts (p : BitVec 12) : pHi8 p ++ pLow p = p := by
  apply BitVec.eq_of_getLsbD_eq
  intro i hi
  simp only [pHi8, pLow, BitVec.getLsbD_append, BitVec.getLsbD_extractLsb']
  by_cases h : i < 4
  · simp [h]
  · have e : 4 + (i - 4) = i := by omega
    have h' : i - 4 < 8 := by omega
    simp [h, h', e]

/-! ## Masks -/

theorem enc_and (op op' : BitVec 4) (p p' : BitVec 12) (b b' : Half) (a a' : Word) :
    enc op p b a &&& enc op' p' b' a' = enc (op &&& op') (p &&& p') (b &&& b') (a &&& a') := by
  have h3 := BitVec.and_append (x₁ := op ++ p ++ b) (x₂ := op' ++ p' ++ b') (y₁ := a) (y₂ := a')
  have h2 := BitVec.and_append (x₁ := op ++ p) (x₂ := op' ++ p') (y₁ := b) (y₂ := b')
  have h1 := BitVec.and_append (x₁ := op) (x₂ := op') (y₁ := p) (y₂ := p')
  exact h3.trans (by rw [h2, h1]; rfl)

theorem enc_inj {op op' : BitVec 4} {p p' : BitVec 12} {b b' : Half} {a a' : Word} :
    enc op p b a = enc op' p' b' a' ↔ op = op' ∧ p = p' ∧ b = b' ∧ a = a' := by
  constructor
  · intro h
    exact ⟨by simpa using congrArg opField h, by simpa using congrArg pField h, by simpa using congrArg bField h,
      by simpa using congrArg aField h⟩
  · rintro ⟨rfl, rfl, rfl, rfl⟩
    rfl

/-- A word is zero exactly when its four fields are. -/
theorem enc_eq_zero {op : BitVec 4} {p : BitVec 12} {b : Half} {a : Word} :
    enc op p b a = 0 ↔ op = 0 ∧ p = 0 ∧ b = 0 ∧ a = 0 := by
  have h : (0 : Cmd) = enc 0 0 0 0 := by decide
  rw [h, enc_inj]

/-- A concatenation is zero exactly when its two parts are. -/
theorem append_eq_zero {m n : Nat} {x : BitVec m} {y : BitVec n} : x ++ y = 0 ↔ x = 0 ∧ y = 0 := by
  constructor
  · intro h
    have h1 := congrArg (BitVec.extractLsb' n m) h
    have h2 := congrArg (BitVec.extractLsb' 0 n) h
    rw [extract_high] at h1
    rw [extract_low] at h2
    exact ⟨h1.trans (by ext i; simp), h2.trans (by ext i; simp)⟩
  · rintro ⟨rfl, rfl⟩
    simp

/-- A masked concatenation is zero exactly when each part is zero under its part of the mask. -/
theorem append_and_eq_zero {m n : Nat} {x k : BitVec m} {y l : BitVec n} :
    (x ++ y) &&& (k ++ l) = 0 ↔ x &&& k = 0 ∧ y &&& l = 0 := by
  rw [BitVec.and_append, append_eq_zero]

/-- A masked word is zero exactly when each field is zero under its part of the mask. -/
theorem enc_and_eq_zero {op op' : BitVec 4} {p p' : BitVec 12} {b b' : Half} {a a' : Word} :
    enc op p b a &&& enc op' p' b' a' = 0 ↔ op &&& op' = 0 ∧ p &&& p' = 0 ∧ b &&& b' = 0 ∧ a &&& a' = 0 := by
  rw [enc_and, enc_eq_zero]

/-- Under a mask of all ones, zero means zero. -/
theorem and_ones_eq_zero {n : Nat} {x k : BitVec n} (hk : k = BitVec.allOnes n) : x &&& k = 0 ↔ x = 0 := by
  subst hk
  rw [BitVec.and_allOnes]

end Sys2Proof
end

