-- ==== Sys2Proof/Laws/State.lean ====
section
/-! SUPPORT. One lemma per field for each update of the state, so that no later proof unfolds a record update. -/

namespace Sys2Proof.Machine

/-! ## Flag writes -/

@[simp] theorem Tmpc.flagSuccess_res (t : Tmpc) : t.flagSuccess.res = t.res := rfl
@[simp] theorem Tmpc.flagSuccess_err (t : Tmpc) : t.flagSuccess.err = false := rfl
@[simp] theorem Tmpc.flagSuccess_errs (t : Tmpc) : t.flagSuccess.errs = t.errs := rfl
@[simp] theorem Tmpc.flagSuccess_ecode (t : Tmpc) : t.flagSuccess.ecode = 0 := rfl
@[simp] theorem Tmpc.flagSuccess_done (t : Tmpc) : t.flagSuccess.done = true := rfl

@[simp] theorem Tmpc.flagFailure_res (e : ErrCode) (t : Tmpc) : (t.flagFailure e).res = t.res := rfl
@[simp] theorem Tmpc.flagFailure_err (e : ErrCode) (t : Tmpc) : (t.flagFailure e).err = true := rfl
@[simp] theorem Tmpc.flagFailure_errs (e : ErrCode) (t : Tmpc) : (t.flagFailure e).errs = true := rfl
@[simp] theorem Tmpc.flagFailure_ecode (e : ErrCode) (t : Tmpc) : (t.flagFailure e).ecode = e.code := rfl
@[simp] theorem Tmpc.flagFailure_done (e : ErrCode) (t : Tmpc) : (t.flagFailure e).done = true := rfl

@[simp] theorem Tmpc.flagIdle_res (t : Tmpc) : t.flagIdle.res = t.res := rfl
@[simp] theorem Tmpc.flagIdle_err (t : Tmpc) : t.flagIdle.err = t.err := rfl
@[simp] theorem Tmpc.flagIdle_errs (t : Tmpc) : t.flagIdle.errs = t.errs := rfl
@[simp] theorem Tmpc.flagIdle_ecode (t : Tmpc) : t.flagIdle.ecode = t.ecode := rfl
@[simp] theorem Tmpc.flagIdle_done (t : Tmpc) : t.flagIdle.done = false := rfl

/-! ## Commits -/

@[simp] theorem Tmpc.succeed_res (v : Word) (t : Tmpc) : (t.succeed v).res = v := rfl
@[simp] theorem Tmpc.succeed_err (v : Word) (t : Tmpc) : (t.succeed v).err = false := rfl
@[simp] theorem Tmpc.succeed_errs (v : Word) (t : Tmpc) : (t.succeed v).errs = t.errs := rfl
@[simp] theorem Tmpc.succeed_ecode (v : Word) (t : Tmpc) : (t.succeed v).ecode = 0 := rfl
@[simp] theorem Tmpc.succeed_done (v : Word) (t : Tmpc) : (t.succeed v).done = true := rfl

@[simp] theorem Tmpc.fail_res (e : ErrCode) (t : Tmpc) : (t.fail e).res = t.res := rfl
@[simp] theorem Tmpc.fail_err (e : ErrCode) (t : Tmpc) : (t.fail e).err = true := rfl
@[simp] theorem Tmpc.fail_errs (e : ErrCode) (t : Tmpc) : (t.fail e).errs = true := rfl
@[simp] theorem Tmpc.fail_ecode (e : ErrCode) (t : Tmpc) : (t.fail e).ecode = e.code := rfl
@[simp] theorem Tmpc.fail_done (e : ErrCode) (t : Tmpc) : (t.fail e).done = true := rfl

@[simp] theorem Tmpc.commit_ok (v : Word) (t : Tmpc) : t.commit (.ok v) = t.succeed v := rfl
@[simp] theorem Tmpc.commit_fail (e : ErrCode) (t : Tmpc) : t.commit (.fail e) = t.fail e := rfl

/-! ## The whole state at an edge -/

@[simp] theorem State.commit_tmpc (s : State) (r : Result) : (s.commit r).tmpc = s.tmpc.commit r := rfl
@[simp] theorem State.commit_sensor (s : State) (r : Result) : (s.commit r).sensor = s.sensor := rfl
@[simp] theorem State.commit_host (s : State) (r : Result) : (s.commit r).host = s.host := rfl
@[simp] theorem State.commit_agenda (s : State) (r : Result) : (s.commit r).agenda = s.agenda := rfl
@[simp] theorem State.commit_params (s : State) (r : Result) : (s.commit r).params = s.params := rfl

@[simp] theorem State.idleEdge_tmpc (s : State) : s.idleEdge.tmpc = s.tmpc.flagIdle := rfl
@[simp] theorem State.idleEdge_sensor (s : State) : s.idleEdge.sensor = s.sensor := rfl
@[simp] theorem State.idleEdge_host (s : State) : s.idleEdge.host = s.host := rfl
@[simp] theorem State.idleEdge_agenda (s : State) : s.idleEdge.agenda = s.agenda := rfl
@[simp] theorem State.idleEdge_params (s : State) : s.idleEdge.params = s.params := rfl

@[simp] theorem State.resetEdge_tmpc (s : State) : s.resetEdge.tmpc = Tmpc.reset := rfl
@[simp] theorem State.resetEdge_sensor (s : State) : s.resetEdge.sensor = s.sensor := rfl
@[simp] theorem State.resetEdge_host (s : State) : s.resetEdge.host = s.host := rfl
@[simp] theorem State.resetEdge_agenda (s : State) : s.resetEdge.agenda = s.agenda := rfl
@[simp] theorem State.resetEdge_params (s : State) : s.resetEdge.params = s.params := rfl

/-! ## The error codes -/

/-- A failure's code is one of 1 to 8 (R98). -/
theorem ErrCode.code_range (e : ErrCode) : 1 ≤ e.code.toNat ∧ e.code.toNat ≤ 8 := by cases e <;> decide

/-- A failure's code is never OK. -/
theorem ErrCode.code_ne_zero (e : ErrCode) : e.code ≠ 0 := by cases e <;> decide

end Sys2Proof.Machine
end

