-- ==== Sys2Proof/Laws/Exec.lean ====
section
/-! SUPPORT. What executing a command can do, said once: every meaning commits the result of its rule, so a command
always has a next state, in which only TMPC's registers differ. -/

namespace Sys2Proof.Machine

/-- Every command commits what `evalInstr` returns for it. -/
theorem exec_eq_commit (i : Instr) (s : State) : exec i s = .next (s.commit (evalInstr s.params.latRom i)) := by
  cases i <;> rfl

/-- An accepted edge commits what `exec(CMD)` returns for the word. -/
theorem accept_eq_commit (c : Cmd) (s : State) : accept c s = .next (s.commit (evalCmd s.params.latRom c)) := by
  unfold accept evalCmd
  cases decode c with
  | ok i => exact exec_eq_commit i s
  | error e => rfl

/-- One clock edge always has a next state, in which TMPC's registers are `Tmpc.edge` of what they were. -/
theorem clockEdge_eq (p : Pins) (s : State) :
    clockEdge p s = .next { s with tmpc := s.tmpc.edge s.params.latRom p } := by
  unfold clockEdge Tmpc.edge
  split
  · rfl
  · split
    · exact accept_eq_commit p.cmd s
    · rfl

/-! ## Reserved bits -/

theorem unlessReserved_of_clear {i : Instr} (h : reservedSet i = false) (r : Result) : unlessReserved i r = r := by
  simp [unlessReserved, h]

theorem unlessReserved_of_set {i : Instr} (h : reservedSet i = true) (r : Result) : unlessReserved i r = .fail .rsvd := by
  simp [unlessReserved, h]

/-! ## From results to statements -/

theorem succeeds_of_eval {i : Instr} {s : State} {v : Word} (h : evalInstr s.params.latRom i = .ok v) :
    Succeeds i s v := by
  rw [Succeeds, exec_eq_commit, h]
  rfl

theorem failsWith_of_eval {i : Instr} {s : State} {e : ErrCode} (h : evalInstr s.params.latRom i = .fail e) :
    FailsWith i s e.code := by
  rw [FailsWith, exec_eq_commit, h]
  rfl

/-- A command has one result, so two results of one command from one state are the same. -/
theorem eval_of_succeeds {i : Instr} {s : State} {v : Word} (h : Succeeds i s v) :
    evalInstr s.params.latRom i = .ok v := by
  rw [Succeeds, exec_eq_commit] at h
  have hs := (Host.Outcome.next.injEq _ _ ▸ h : s.commit _ = _)
  cases hr : evalInstr s.params.latRom i with
  | ok w =>
    rw [hr] at hs
    have := congrArg (fun t => t.tmpc.res) hs
    simpa using this
  | fail e =>
    rw [hr] at hs
    have := congrArg (fun t => t.tmpc.err) hs
    simp at this

end Sys2Proof.Machine
end

