-- ==== Sys2Proof/Laws/Machine.lean ====
section
/-! SUPPORT. What one step of the machine can do, said once: a step that drives TMPC's pins is a clock edge, and a step
that does not leaves TMPC alone. -/

namespace Sys2Proof.Machine

/-! ## Bus transactions -/

/-- A transaction has a next state exactly when the Sensor answers it. -/
theorem onAnswer_next {a : BusAnswer} {k : List Byte → Sensor → State} {t : State} (h : onAnswer a k = .next t) :
    ∃ rx sn, a = .done rx sn ∧ t = k rx sn := by
  cases a with
  | done rx sn => cases h; exact ⟨rx, sn, rfl, rfl⟩
  | fault f => cases h
  | refused r => cases h

/-- A transaction stops exactly when the Sensor has no answer to it. -/
theorem onAnswer_stops_iff {a : BusAnswer} {k : List Byte → Sensor → State} :
    (∀ t, onAnswer a k ≠ .next t) ↔ ∀ rx sn, a ≠ .done rx sn := by
  cases a with
  | done rx sn => exact ⟨fun h => absurd rfl (h _), fun h => absurd rfl (h rx sn)⟩
  | fault f => exact ⟨fun _ _ _ h => (nomatch h), fun _ _ h => (nomatch h)⟩
  | refused r => exact ⟨fun _ _ _ h => (nomatch h), fun _ _ h => (nomatch h)⟩

@[simp] theorem abort_deadline (h : HostAgent) (v : Verdict) : (h.abort v).deadline = h.deadline := rfl
@[simp] theorem abort_now (h : HostAgent) (v : Verdict) : (h.abort v).now = h.now := rfl
@[simp] theorem receive_deadline (h : HostAgent) (rx : List Byte) : (h.receive rx).deadline = h.deadline := by
  simp only [HostAgent.receive]; split <;> rfl
@[simp] theorem receive_now (h : HostAgent) (rx : List Byte) : (h.receive rx).now = h.now := by
  simp only [HostAgent.receive]; split <;> rfl

/-- A next state after a Host's transaction: TMPC, the agenda and the parameters are as before, and the Sensor is as
before or what it answered with. -/
theorem busTurn_next {tx : BusTx} {d : Draw} {s t : State} (h : busTurn tx d s = .next t) :
    t.tmpc = s.tmpc ∧ t.agenda = s.agenda ∧ t.params = s.params ∧ t.host.deadline = s.host.deadline ∧
      t.host.now = s.host.now ∧
      (t.sensor = s.sensor ∨ ∃ rx, transact s.params tx d.regs s.sensor = .done rx t.sensor) := by
  obtain ⟨rx, sn, ha, rfl⟩ := onAnswer_next h
  cases d.fate with
  | completes => exact ⟨rfl, rfl, rfl, receive_deadline _ _, receive_now _ _, .inr ⟨rx, ha⟩⟩
  | failsReached => exact ⟨rfl, rfl, rfl, rfl, rfl, .inr ⟨rx, ha⟩⟩
  | failsUnreached => exact ⟨rfl, rfl, rfl, rfl, rfl, .inl rfl⟩

/-- A next state after another Host's transaction: only the Sensor may differ. -/
theorem otherHostTurn_next {tx : BusTx} {d : Draw} {s t : State} (h : otherHostTurn tx d s = .next t) :
    ∃ sn, t = { s with sensor := sn } ∧ (sn = s.sensor ∨ ∃ rx, transact s.params tx d.regs s.sensor = .done rx sn) := by
  obtain ⟨rx, sn, ha, rfl⟩ := onAnswer_next h
  cases d.fate with
  | completes => exact ⟨sn, rfl, .inr ⟨rx, ha⟩⟩
  | failsReached => exact ⟨sn, rfl, .inr ⟨rx, ha⟩⟩
  | failsUnreached => exact ⟨s.sensor, rfl, .inl rfl⟩

/-- What a transaction that the Sensor answers was: a read or a write of a named register. -/
theorem transact_done {p : Params} {tx : BusTx} {draw sn sn' : Sensor} {rx : List Byte}
    (h : transact p tx draw sn = .done rx sn') :
    (∃ r, rx = wireBytes (sn.readReg r draw).1 ∧ sn' = (sn.readReg r draw).2) ∨
      ∃ r v, rx = [] ∧ sn' = sn.writeReg p r v draw := by
  unfold transact at h
  split at h
  · split at h
    · unfold resolveAddr at h
      split at h
      · cases h
      · split at h
        · cases h
        · cases h
          exact .inl ⟨_, rfl, rfl⟩
    · cases h
  · unfold resolveAddr at h
    split at h
    · cases h
    · split at h
      · cases h
      · cases h
        exact .inr ⟨_, _, rfl, rfl⟩
  · cases h

/-! ## The Sensor's identity -/

@[simp] theorem readReg_deviceId (r : SensorReg) (draw sn : Sensor) :
    (sn.readReg r draw).2.deviceId = sn.deviceId := by cases r <;> rfl

@[simp] theorem writeReg_deviceId (p : Params) (r : SensorReg) (v : Half) (draw sn : Sensor) :
    (sn.writeReg p r v draw).deviceId = sn.deviceId := by
  cases r <;> first | rfl | (simp only [Sensor.writeReg, Sensor.writeConfig]; split <;> rfl)

@[simp] theorem event_deviceId (e : SensorEvent) (sn : Sensor) : (sn.event e).deviceId = sn.deviceId := by
  cases e <;> rfl

/-- No transaction changes DEVICE_ID. -/
theorem transact_deviceId {p : Params} {tx : BusTx} {draw sn sn' : Sensor} {rx : List Byte}
    (h : transact p tx draw sn = .done rx sn') : sn'.deviceId = sn.deviceId := by
  obtain ⟨r, -, rfl⟩ | ⟨r, v, -, rfl⟩ := transact_done h
  · simp
  · simp

/-! ## One step -/

/-- What one step leaves of the state when it answers a next state: if it drives TMPC's pins it is a clock edge and the
Sensor is untouched, and if it does not TMPC is untouched.  The parameters never change and the agenda moves on. -/
theorem step_next {s t : State} (h : step s = .next t) :
    (∀ p, s.nextPins = some p → t.tmpc = s.tmpc.edge s.params.latRom p ∧ t.sensor = s.sensor) ∧
      (s.nextPins = none → t.tmpc = s.tmpc) ∧
      t.params = s.params ∧ t.agenda = s.agenda.tail ∧ t.sensor.deviceId = s.sensor.deviceId := by
  obtain ⟨tmpc, sensor, host, agenda, params⟩ := s
  cases agenda with
  | nil =>
    cases h
    exact ⟨fun p hp => (by cases hp; exact ⟨rfl, rfl⟩), fun hn => (nomatch hn), rfl, rfl, rfl⟩
  | cons turn rest =>
    cases turn with
    | edge p =>
      simp only [step, takeTurn, clockEdge_eq] at h
      cases h
      exact ⟨fun q hq => (by cases hq; exact ⟨rfl, rfl⟩), fun hn => (nomatch hn), rfl, rfl, rfl⟩
    | sensor e =>
      cases h
      exact ⟨fun p hp => (nomatch hp), fun _ => rfl, rfl, rfl, event_deviceId e sensor⟩
    | otherHost tx d =>
      obtain ⟨sn, rfl, hsn⟩ := otherHostTurn_next h
      refine ⟨fun p hp => (nomatch hp), fun _ => rfl, rfl, rfl, ?_⟩
      obtain rfl | ⟨rx, hrx⟩ := hsn
      · rfl
      · exact transact_deviceId hrx
    | host d =>
      obtain ⟨todo, w, now, deadline, verdict⟩ := host
      have hbus : ∀ tx s', busTurn tx d s' = .next t → s'.tmpc = tmpc → s'.sensor = sensor → s'.agenda = rest →
          s'.params = params → t.tmpc = tmpc ∧ t.params = params ∧ t.agenda = rest ∧
            t.sensor.deviceId = sensor.deviceId := by
        rintro tx s' hb rfl rfl rfl rfl
        obtain ⟨h1, h2, h3, -, -, he | ⟨rx, hrx⟩⟩ := busTurn_next hb <;> refine ⟨h1, h3, h2, ?_⟩
        · rw [he]
        · exact transact_deviceId hrx
      cases todo with
      | nil =>
        cases h
        exact ⟨fun p hp => (by cases hp; exact ⟨rfl, rfl⟩), fun hn => (nomatch hn), rfl, rfl, rfl⟩
      | cons op ops =>
        cases op with
        | idle | reset | present _ | presentOnWord _ =>
          simp only [step, takeTurn, hostTurn, hostOp, clockEdge_eq] at h
          cases h
          exact ⟨fun p hp => (by cases hp; exact ⟨rfl, rfl⟩), fun hn => (nomatch hn), rfl, rfl, rfl⟩
        | readReg _ | writeReg _ _ | bus _ =>
          obtain ⟨h1, h2, h3, h4⟩ := hbus _ _ h rfl rfl rfl rfl
          exact ⟨fun p hp => (nomatch hp), fun _ => h1, h2, h3, h4⟩
        | writeResult r =>
          simp only [step, takeTurn, hostTurn, hostOp] at h
          split at h
          · cases h
            exact ⟨fun p hp => (nomatch hp), fun _ => rfl, rfl, rfl, rfl⟩
          · obtain ⟨h1, h2, h3, h4⟩ := hbus _ _ h rfl rfl rfl rfl
            exact ⟨fun p hp => (nomatch hp), fun _ => h1, h2, h3, h4⟩
        | startDeadline | pollCheck =>
          cases h
          exact ⟨fun p hp => (nomatch hp), fun _ => rfl, rfl, rfl, rfl⟩

/-- Where `SENSOR_REG_ADDR` is as rule R44 says, a register's own index resolves to that register. -/
theorem resolveAddr_regAddr {m : SensorRegAddr} (hm : addrMapOk m = true) (r : SensorReg) (k : SensorReg → BusAnswer) :
    resolveAddr m (regAddr m r) k = k r := by
  have hmem : r ∈ sensorRegs := by cases r <;> decide
  simp only [addrMapOk, Bool.and_eq_true, List.all_eq_true, decide_eq_true_eq] at hm
  obtain ⟨hlow, hinj⟩ := hm
  have h1 : ¬(regAddr m r).toNat > 0x0F := by have := hlow r hmem; omega
  have h2 : regAt m (regAddr m r) = some r := by
    rw [regAt]
    cases hf : sensorRegs.find? (fun r' => regAddr m r' == regAddr m r) with
    | none =>
      have := List.find?_eq_none.mp hf r hmem
      simp at this
    | some r' =>
      have heq := List.find?_some hf
      have hmem' := List.mem_of_find?_eq_some hf
      have := hinj r' hmem' r hmem
      simp only [beq_iff_eq] at heq
      simp only [heq, Bool.or_eq_true, beq_iff_eq, bne_self_eq_false, Bool.false_eq_true, or_false] at this
      rw [this]
  rw [resolveAddr, if_neg h1, h2]

end Sys2Proof.Machine
end

