-- ==== Sys2Proof/Laws/PerInstr.lean ====
section
/-! SUPPORT. Facts of every command as syntax, one lemma per constructor.

Family `Opcode` (spec/30_encoding.md rules R58 and R64): the top four bits of a command's word are its opcode, and that is
one of the legal opcodes 1 to 8. -/

namespace Sys2Proof.Laws.Opcode

/-- The word of `i` carries the opcode of `i` in bits 63 to 60, and the opcode is legal. -/
def Statement (i : Instr) : Prop := opField (encode i) = i.opcode ∧ 1 ≤ i.opcode.toNat ∧ i.opcode.toNat ≤ 8

theorem cnt2c (count aHi b : Half) (p : BitVec 12) : Statement (.cnt2c count aHi b p) :=
  ⟨opField_enc _ _ _ _, by simp [Instr.opcode], by simp [Instr.opcode]⟩

theorem cnt2f (count aHi b : Half) (p : BitVec 12) : Statement (.cnt2f count aHi b p) :=
  ⟨opField_enc _ _ _ _, by simp [Instr.opcode], by simp [Instr.opcode]⟩

theorem c2cnt (cin : Word) (b : Half) (p : BitVec 12) : Statement (.c2cnt cin b p) :=
  ⟨opField_enc _ _ _ _, by simp [Instr.opcode], by simp [Instr.opcode]⟩

theorem pack (container value : Half) (msb : BitVec 4) (width : BitVec 5) (aHi : Half) (pHi : BitVec 3) :
    Statement (.pack container value msb width aHi pHi) :=
  ⟨opField_enc _ _ _ _, by simp [Instr.opcode], by simp [Instr.opcode]⟩

theorem unpack (container : Half) (msb : BitVec 4) (width : BitVec 5) (aHi b : Half) (pHi : BitVec 3) :
    Statement (.unpack container msb width aHi b pHi) :=
  ⟨opField_enc _ _ _ _, by simp [Instr.opcode], by simp [Instr.opcode]⟩

theorem getf (container : Half) (fid : BitVec 4) (aHi b : Half) (pHi : BitVec 8) :
    Statement (.getf container fid aHi b pHi) :=
  ⟨opField_enc _ _ _ _, by simp [Instr.opcode], by simp [Instr.opcode]⟩

theorem setf (container value : Half) (fid : BitVec 4) (aHi : Half) (pHi : BitVec 8) :
    Statement (.setf container value fid aHi pHi) :=
  ⟨opField_enc _ _ _ _, by simp [Instr.opcode], by simp [Instr.opcode]⟩

theorem lat (cycle : Word) (avg : Half) (p : BitVec 12) : Statement (.lat cycle avg p) :=
  ⟨opField_enc _ _ _ _, by simp [Instr.opcode], by simp [Instr.opcode]⟩

end Sys2Proof.Laws.Opcode
end

