-- ==== Sys2Proof/Laws/Sensor.lean ====
section
/-! SUPPORT. The Sensor and the Host's transactions, said once: selecting bits, the wire round trip, what a completing
read or write of a named register leaves, and which operation a turn of the Host runs. -/

namespace Sys2Proof.Machine

/-! ## Selecting bits -/

/-- Bit by bit, `select` takes the first word where the mask is 1 and the second where it is 0. -/
theorem select_getLsbD (m a b : Half) (k : Nat) :
    (select m a b).getLsbD k = if m.getLsbD k then a.getLsbD k else b.getLsbD k := by
  by_cases hk : k < 16
  · rw [select, BitVec.getLsbD_or, BitVec.getLsbD_and, BitVec.getLsbD_and, BitVec.getLsbD_not]
    cases m.getLsbD k <;> simp [hk]
  · have e : ∀ x : Half, x.getLsbD k = false := fun x => BitVec.getLsbD_of_ge x k (by omega)
    simp [e]

/-- Under its mask, `select` is the first word. -/
theorem select_and_mask (m a b : Half) : select m a b &&& m = a &&& m := by
  apply BitVec.eq_of_getLsbD_eq
  intro i _
  rw [BitVec.getLsbD_and, BitVec.getLsbD_and, select_getLsbD]
  cases m.getLsbD i <;> simp

/-- Outside its mask, `select` is the second word. -/
theorem select_and_of_disjoint (m k a b : Half) (h : k &&& m = 0) : select m a b &&& k = b &&& k := by
  apply BitVec.eq_of_getLsbD_eq
  intro i _
  have hi := congrArg (fun x => x.getLsbD i) h
  simp only [BitVec.getLsbD_and] at hi
  rw [BitVec.getLsbD_and, BitVec.getLsbD_and, select_getLsbD]
  cases hm : m.getLsbD i <;> cases hk : k.getLsbD i <;> simp_all

/-- A field that lies under the mask reads from the first word. -/
theorem select_extract (m a b : Half) (k n : Nat) (h : ∀ i < n, m.getLsbD (k + i) = true) :
    (select m a b).extractLsb' k n = a.extractLsb' k n := by
  apply BitVec.eq_of_getLsbD_eq
  intro i hi
  simp only [BitVec.getLsbD_extractLsb', select_getLsbD, h i hi, if_true]

/-! ## The wire -/

theorem wireWord_toNat (b0 b1 : Byte) : (wireWord b0 b1).toNat = 256 * b0.toNat + b1.toNat := by
  show (b0 ++ b1).toNat = _
  rw [BitVec.toNat_append, ← Nat.shiftLeft_add_eq_or_of_lt b1.isLt, Nat.shiftLeft_eq]
  omega

/-- The two bytes a word is sent as assemble back to the word. -/
theorem wireWord_wireBytes (v : Half) : wireWord (v.extractLsb' 8 8) (v.extractLsb' 0 8) = v := by
  apply BitVec.eq_of_toNat_eq
  rw [wireWord_toNat]
  simp only [BitVec.extractLsb'_toNat]
  have := v.isLt
  omega

/-! ## Which transactions the Sensor answers -/

/-- The answer to a transaction of another length than two bytes. -/
theorem transact_length {p : Params} {tx : BusTx} {draw sn : Sensor} (h : tx.byteCount ≠ 2) :
    transact p tx draw sn = .refused .transferLength := by
  unfold transact
  split
  · exact if_neg h
  · exact absurd rfl h
  · rfl

/-- The answer to a transaction of two bytes is its register's, if the address has one. -/
theorem transact_two {p : Params} {tx : BusTx} {draw sn : Sensor} (h : tx.byteCount = 2) :
    ∃ k : SensorReg → BusAnswer, transact p tx draw sn = resolveAddr p.sensorRegAddr tx.addr k := by
  cases tx with
  | read a n =>
    refine ⟨fun r => .done (wireBytes (sn.readReg r draw).1) (sn.readReg r draw).2, ?_⟩
    exact if_pos h
  | write a bs =>
    match bs, h with
    | [b0, b1], _ => exact ⟨fun r => .done [] (sn.writeReg p r (wireWord b0 b1) draw), rfl⟩

/-- A transaction of two bytes at an index above 0x0F. -/
theorem transact_outside {p : Params} {tx : BusTx} {draw sn : Sensor} (h : tx.byteCount = 2)
    (ha : 0x0F < tx.addr.toNat) : transact p tx draw sn = .fault .sensorAddress := by
  obtain ⟨k, hk⟩ := transact_two h
  rw [hk, resolveAddr, if_pos ha]

/-- A transaction of two bytes at an index in range that no register has. -/
theorem transact_unnamed {p : Params} {tx : BusTx} {draw sn : Sensor} (h : tx.byteCount = 2)
    (ha : tx.addr.toNat ≤ 0x0F) (hr : ∀ r, regAddr p.sensorRegAddr r ≠ tx.addr) :
    transact p tx draw sn = .refused .unnamedSensorRegister := by
  obtain ⟨k, hk⟩ := transact_two h
  have hn : regAt p.sensorRegAddr tx.addr = none := by
    rw [regAt, List.find?_eq_none]
    intro r _
    simpa using hr r
  rw [hk, resolveAddr, if_neg (by omega), hn]

/-- A step that makes a transaction goes on exactly as the Sensor's answer lets it. -/
theorem step_of_nextTx {s : State} {tx : BusTx} {d : Draw} (h : s.nextTx = some (tx, d)) :
    ∃ k, step s = onAnswer (transact s.params tx d.regs s.sensor) k := by
  obtain ⟨tmpc, sensor, ⟨todo, w, now, deadline, verdict⟩, agenda, params⟩ := s
  cases agenda with
  | nil => cases h
  | cons turn rest =>
    cases turn with
    | edge _ | sensor _ => cases h
    | otherHost tx' d' => cases h; exact ⟨_, rfl⟩
    | host d' =>
      cases todo with
      | nil => cases h
      | cons op ops =>
        cases op with
        | idle | reset | present _ | presentOnWord _ | startDeadline | pollCheck => cases h
        | readReg _ | writeReg _ _ | bus _ => cases h; exact ⟨_, rfl⟩
        | writeResult r =>
          simp only [State.nextTx] at h
          split at h
          · cases h
          · rename_i he
            cases h
            exact ⟨_, if_neg he⟩

/-- A step that makes no transaction has a next state. -/
theorem step_of_no_nextTx {s : State} (h : s.nextTx = none) : ∃ t, step s = .next t := by
  obtain ⟨tmpc, sensor, ⟨todo, w, now, deadline, verdict⟩, agenda, params⟩ := s
  cases agenda with
  | nil => exact ⟨_, rfl⟩
  | cons turn rest =>
    cases turn with
    | edge p => exact ⟨_, clockEdge_eq _ _⟩
    | sensor _ => exact ⟨_, rfl⟩
    | otherHost _ _ => cases h
    | host d =>
      cases todo with
      | nil => exact ⟨_, rfl⟩
      | cons op ops =>
        cases op with
        | idle | reset | present _ | presentOnWord _ =>
          simp only [step, takeTurn, hostTurn, hostOp, clockEdge_eq]
          exact ⟨_, rfl⟩
        | startDeadline | pollCheck => exact ⟨_, rfl⟩
        | readReg _ | writeReg _ _ | bus _ => cases h
        | writeResult r =>
          simp only [State.nextTx] at h
          split at h
          · rename_i he
            exact ⟨_, if_pos he⟩
          · cases h

/-! ## Completing transactions -/

/-- A completing `SensorRead` of a named register. -/
theorem busTurn_read {s : State} {r : SensorReg} {d : Draw} (hm : s.AddrMapOk) (hd : d.fate = .completes) :
    busTurn (.read (regAddr s.params.sensorRegAddr r) 2) d s =
      .next { s with sensor := (s.sensor.readReg r d.regs).2, host := { s.host with w := (s.sensor.readReg r d.regs).1 } } := by
  simp only [busTurn, onAnswer, hd, transact, if_true, resolveAddr_regAddr hm, HostAgent.receive, wireBytes, wireWord_wireBytes]

/-- A completing `SensorWrite` of a named register. -/
theorem busTurn_write {s : State} {r : SensorReg} {v : Half} {d : Draw} (hm : s.AddrMapOk) (hd : d.fate = .completes) :
    busTurn (.write (regAddr s.params.sensorRegAddr r) (wireBytes v)) d s =
      .next { s with sensor := s.sensor.writeReg s.params r v d.regs } := by
  simp only [busTurn, onAnswer, hd, transact, wireBytes, resolveAddr_regAddr hm, wireWord_wireBytes, HostAgent.receive]

/-! ## Turns -/

/-- A turn of a Host that has a step to take runs that step. -/
theorem step_host {s : State} {d : Draw} {rest : List Turn} {op : HostOp} {ops : List HostOp}
    (ha : s.agenda = .host d :: rest) (ht : s.host.todo = op :: ops) :
    step s = hostOp op d { s with agenda := rest, host := { s.host with todo := ops, now := s.host.now + d.elapsed } } := by
  simp only [step, ha, takeTurn, hostTurn, ht]

/-- A completing `SensorRead` of a named register, as a step. -/
theorem step_readReg {s : State} {d : Draw} {rest : List Turn} {r : SensorReg} {ops : List HostOp} (hm : s.AddrMapOk)
    (ha : s.agenda = .host d :: rest) (ht : s.host.todo = .readReg r :: ops) (hd : d.fate = .completes) :
    step s = .next { s with
      agenda := rest, sensor := (s.sensor.readReg r d.regs).2,
      host := { s.host with todo := ops, now := s.host.now + d.elapsed, w := (s.sensor.readReg r d.regs).1 } } := by
  rw [step_host ha ht]
  exact busTurn_read (by exact hm) hd

/-- A completing `SensorWrite` of a named register, as a step. -/
theorem step_writeReg {s : State} {d : Draw} {rest : List Turn} {r : SensorReg} {v : Half} {ops : List HostOp}
    (hm : s.AddrMapOk) (ha : s.agenda = .host d :: rest) (ht : s.host.todo = .writeReg r v :: ops)
    (hd : d.fate = .completes) :
    step s = .next { s with
      agenda := rest, sensor := s.sensor.writeReg s.params r v d.regs,
      host := { s.host with todo := ops, now := s.host.now + d.elapsed } } := by
  rw [step_host ha ht]
  exact busTurn_write (by exact hm) hd

/-- A write of the result that the command before it earned, as a step. -/
theorem step_writeResult {s : State} {d : Draw} {rest : List Turn} {r : SensorReg} {ops : List HostOp}
    (hm : s.AddrMapOk) (ha : s.agenda = .host d :: rest) (ht : s.host.todo = .writeResult r :: ops)
    (hd : d.fate = .completes) (he : s.tmpc.err = false) :
    step s = .next { s with
      agenda := rest, sensor := s.sensor.writeReg s.params r (aLo s.tmpc.res) d.regs,
      host := { s.host with todo := ops, now := s.host.now + d.elapsed } } := by
  rw [step_host ha ht]
  simp only [hostOp, he, Bool.false_eq_true, if_false]
  exact busTurn_write (by exact hm) hd

/-- No write is made of the result of a command that failed, as a step. -/
theorem step_writeResult_skip {s : State} {d : Draw} {rest : List Turn} {r : SensorReg} {ops : List HostOp}
    (ha : s.agenda = .host d :: rest) (ht : s.host.todo = .writeResult r :: ops) (he : s.tmpc.err = true) :
    step s = .next { s with agenda := rest, host := { s.host with todo := ops, now := s.host.now + d.elapsed } } := by
  rw [step_host ha ht, hostOp, if_pos he]

/-- Presenting a word, as a step. -/
theorem step_present {s : State} {d : Draw} {rest : List Turn} {c : Cmd} {ops : List HostOp}
    (ha : s.agenda = .host d :: rest) (ht : s.host.todo = .present c :: ops) :
    step s = .next { s with
      agenda := rest, tmpc := s.tmpc.edge s.params.latRom ⟨false, true, c⟩,
      host := { s.host with todo := ops, now := s.host.now + d.elapsed } } := by
  rw [step_host ha ht, hostOp, clockEdge_eq]

/-- Presenting a word on what was last read, as a step. -/
theorem step_presentOnWord {s : State} {d : Draw} {rest : List Turn} {c : Cmd} {ops : List HostOp}
    (ha : s.agenda = .host d :: rest) (ht : s.host.todo = .presentOnWord c :: ops) :
    step s = .next { s with
      agenda := rest, tmpc := s.tmpc.edge s.params.latRom ⟨false, true, onWord c s.host.w⟩,
      host := { s.host with todo := ops, now := s.host.now + d.elapsed } } := by
  rw [step_host ha ht, hostOp, clockEdge_eq]

/-- A completing read of a named register by another Host, as a step. -/
theorem step_otherRead {s : State} {d : Draw} {rest : List Turn} {r : SensorReg} (hm : s.AddrMapOk)
    (ha : s.agenda = .otherHost (.read (regAddr s.params.sensorRegAddr r) 2) d :: rest) (hd : d.fate = .completes) :
    step s = .next { s with agenda := rest, sensor := (s.sensor.readReg r d.regs).2 } := by
  simp only [step, ha, takeTurn, otherHostTurn, onAnswer, hd, transact, if_true, resolveAddr_regAddr hm]

/-- A completing write of a named register by another Host, as a step. -/
theorem step_otherWrite {s : State} {d : Draw} {rest : List Turn} {r : SensorReg} {v : Half} (hm : s.AddrMapOk)
    (ha : s.agenda = .otherHost (.write (regAddr s.params.sensorRegAddr r) (wireBytes v)) d :: rest)
    (hd : d.fate = .completes) :
    step s = .next { s with agenda := rest, sensor := s.sensor.writeReg s.params r v d.regs } := by
  simp only [step, ha, takeTurn, otherHostTurn, onAnswer, hd, transact, wireBytes, resolveAddr_regAddr hm, wireWord_wireBytes]

/-! ## CONFIG writes -/

/-- A write of CONFIG with bit 1 clear. -/
theorem writeReg_config_plain (sn : Sensor) (p : Params) {v : Half} (draw : Sensor) (h : v.getLsbD 1 = false) :
    sn.writeReg p .config v draw = { sn with config := select modeMask v draw.config } := by
  simp only [Sensor.writeReg, Sensor.writeConfig, h, Bool.false_eq_true, if_false]

/-- A write of CONFIG with bit 1 set is a soft reset. -/
theorem writeReg_config_soft (sn : Sensor) (p : Params) {v : Half} (draw : Sensor) (h : v.getLsbD 1 = true) :
    sn.writeReg p .config v draw = sn.softReset p draw := by
  simp only [Sensor.writeReg, Sensor.writeConfig, h, if_true]

/-! ## Runs -/

/-- A run of `k + 1` steps whose first step answers a next state. -/
theorem core_run_succ {k : Nat} {s t : State} (h : step s = .next t) : core.run (k + 1) s = core.run k t := by
  have h' : core.step s = .next t := h
  simp only [Host.Core.run, h']

end Sys2Proof.Machine
end

