-- ==== Sys2Proof/Tests/Slice0.lean ====
section
/-! SUPPORT. Tests.  Expected values come from spec/95_test_vectors.md (the row or program is named) or from a rule's own
worked example, never from the model.  The witnesses at the end show, for each obligation with hypotheses, concrete
states and operands that meet them all together. -/

namespace Sys2Proof.Tests

open Sys2Proof.Machine

/-! ## Small states -/

/-- After reset, with RES and the flags as given. -/
def tmpcState (res : Word) (err errs : Bool) (ecode : BitVec 4) (done : Bool) : State :=
  { State.reset with tmpc := ⟨res, err, errs, ecode, done⟩ }

/-- After reset, with CONFIG, the Host's steps and the agenda as given. -/
def hostState (config : Half) (todo : List HostOp) (agenda : List Turn) : State :=
  { State.reset with
    sensor := { State.reset.sensor with config := config }
    host := { State.reset.host with todo := todo }
    agenda := agenda }

/-- A turn whose transaction completes; every open bit of CONFIG is drawn from `config`. -/
def drawn (config : Half) : Draw :=
  { regs := { Sensor.powerUp paramsDefault with config := config }, fate := .completes, elapsed := 1 }

/-- A turn whose transaction does not reach the Sensor. -/
def unreached : Draw := { drawn 0 with fate := .failsUnreached }

/-- RES and STAT_O in the next state. -/
def shows (o : Host.Outcome State Fault Refusal) : Option (Word × Byte) :=
  match o with
  | .next t => some (t.resO, t.statO)
  | _ => none

/-- RES and STAT_O after one step that takes this word, from a state that holds 0x12345678 and no error. -/
def runWord (c : Cmd) : Option (Word × Byte) := shows (step ((tmpcState 0x12345678 false false 0 false).presentNext c))

/-- The Host's word and the Sensor's CONFIG in the next state. -/
def wordAndConfig (o : Host.Outcome State Fault Refusal) : Option (Half × Half) :=
  match o with
  | .next t => some (t.host.w, t.sensor.config)
  | _ => none

/-! ## Well-formedness: one ill-formed term for each check, each refused -/

theorem test_wellFormed_refuses_cnt2c :
    (Instr.cnt2c 0 1 0 0).wellFormed = false ∧ (Instr.cnt2c 0 0 1 0).wellFormed = false ∧
      (Instr.cnt2c 0 0 0 1).wellFormed = false ∧ (Instr.cnt2c 0xFFFF 0 0 0).wellFormed = true := by decide

theorem test_wellFormed_refuses_cnt2f :
    (Instr.cnt2f 0 1 0 0).wellFormed = false ∧ (Instr.cnt2f 0 0 1 0).wellFormed = false ∧
      (Instr.cnt2f 0 0 0 0x800).wellFormed = false ∧ (Instr.cnt2f 0xFFFF 0 0 0).wellFormed = true := by decide

theorem test_wellFormed_refuses_c2cnt :
    (Instr.c2cnt 0 1 0).wellFormed = false ∧ (Instr.c2cnt 0 0 1).wellFormed = false ∧
      (Instr.c2cnt 0xFFFFFFFF 0 0).wellFormed = true := by decide

theorem test_wellFormed_refuses_pack :
    (Instr.pack 0 0 0 0 1 0).wellFormed = false ∧ (Instr.pack 0 0 0 0 0 1).wellFormed = false ∧
      (Instr.pack 0xFFFF 0xFFFF 15 31 0 0).wellFormed = true := by decide

theorem test_wellFormed_refuses_unpack :
    (Instr.unpack 0 0 0 1 0 0).wellFormed = false ∧ (Instr.unpack 0 0 0 0 1 0).wellFormed = false ∧
      (Instr.unpack 0 0 0 0 0 4).wellFormed = false ∧ (Instr.unpack 0xFFFF 15 31 0 0 0).wellFormed = true := by decide

theorem test_wellFormed_refuses_getf :
    (Instr.getf 0 0 1 0 0).wellFormed = false ∧ (Instr.getf 0 0 0 1 0).wellFormed = false ∧
      (Instr.getf 0 0 0 0 1).wellFormed = false ∧ (Instr.getf 0xFFFF 15 0 0 0).wellFormed = true := by decide

theorem test_wellFormed_refuses_setf :
    (Instr.setf 0 0 0 1 0).wellFormed = false ∧ (Instr.setf 0 0 0 0 0x80).wellFormed = false ∧
      (Instr.setf 0xFFFF 0xFFFF 15 0 0).wellFormed = true := by decide

theorem test_wellFormed_refuses_lat :
    (Instr.lat 0 0 1).wellFormed = false ∧ (Instr.lat 0xFFFFFFFF 0xFFFF 0).wellFormed = true := by decide

/-! ## Decoding: words written out from rules R58 and R60 -/

/-- OP 0001, P and B zero, A = count 0x0190 (W1). -/
theorem test_decode_cnt2c :
    decode 0b0001000000000000000000000000000000000000000000000000000110010000 = .ok (.cnt2c 0x0190 0 0 0) := by decide

/-- OP 0010, P[11] set (section 2.3's last row). -/
theorem test_decode_cnt2f :
    decode 0b0010100000000000000000000000000000000000000000000000000000000000 = .ok (.cnt2f 0 0 0 0x800) := by decide

/-- OP 0011, A = 0xFFD80000 (P2 step 4). -/
theorem test_decode_c2cnt :
    decode 0b0011000000000000000000000000000011111111110110000000000000000000 = .ok (.c2cnt 0xFFD80000 0 0) := by decide

/-- OP 0100, P = 000 00011 1001 (width 3, msb 9), B = 5, A = 0xFFFF (W5). -/
theorem test_decode_pack :
    decode 0b0100000000111001000000000000010100000000000000001111111111111111 = .ok (.pack 0xFFFF 5 9 3 0 0) := by decide

/-- OP 0101, P = 000 10000 1111 (width 16, msb 15), A = 0x8000 (section 2.5). -/
theorem test_decode_unpack :
    decode 0b0101000100001111000000000000000000000000000000001000000000000000 = .ok (.unpack 0x8000 15 16 0 0 0) := by decide

/-- OP 0110, P = 00000000 1011 (fid 11), A = 0xC220 (P5 step 4). -/
theorem test_decode_getf :
    decode 0b0110000000001011000000000000000000000000000000001100001000100000 = .ok (.getf 0xC220 11 0 0 0) := by decide

/-- OP 0111, P = 00000001 0000 (P[4] set, fid 0), B = 9 (P4 step 3). -/
theorem test_decode_setf :
    decode 0b0111000000010000000000000000100100000000000000000000000000000000 = .ok (.setf 0 9 0 0 1) := by decide

/-- OP 1000, B = 65535, A = 4294967295 (section 2.8). -/
theorem test_decode_lat :
    decode 0b1000000000000000111111111111111111111111111111111111111111111111 = .ok (.lat 0xFFFFFFFF 0xFFFF 0) := by decide

/-- Section 2.9: the illegal opcodes, by name. -/
theorem test_decode_refuses_illegal_opcodes :
    decode 0 = .error (.illegalOp 0) ∧ decode 0x9000000000000000 = .error (.illegalOp 9) ∧
      decode 0xFFFFFFFFFFFFFFFF = .error (.illegalOp 15) ∧ decodeTableWord 64 0 = none := by decide

/-- Encodings printed in section 2. -/
theorem test_encode_prints_the_words :
    encode (.setf 0x0220 7 5 0 0) = 0x7005000700000220 ∧ encode (.pack 0x1234 43981 15 16 0 0) = 0x410FABCD00001234 ∧
      encode (.lat 4 3 0) = 0x8000000300000004 ∧ encode (.unpack 0xABCD 11 4 0 0 0) = 0x504B00000000ABCD := by decide

/-! ## One step of each command -/

/-- W1 and section 2.2: 400 counts are 3.125 degrees, and -5120 are -40.0. -/
theorem test_cnt2c :
    runWord 0x1000000000000190 = some (0x00032000, 0x80) ∧ runWord 0x100000000000EC00 = some (0xFFD80000, 0x80) := by decide

/-- A count given sign-extended fails RSVD, RES unchanged (section 2.2). -/
theorem test_cnt2c_reserved : runWord 0x10000000FFFFFFFF = some (0x12345678, 0xE2) := by decide

/-- Rounding up, rounding down, and the smallest count (section 2.3). -/
theorem test_cnt2f :
    runWord 0x2000000000000001 = some (0x0020039A, 0x80) ∧ runWord 0x200000000000FFFF = some (0x001FFC66, 0x80) ∧
      runWord 0x2000000000008000 = some (0xFE533333, 0x80) := by decide

/-- Ties go to the even count, up and down (section 2.1). -/
theorem test_c2cnt_ties :
    runWord 0x3000000000000100 = some (0x00000000, 0x80) ∧ runWord 0x3000000000000300 = some (0x00000002, 0x80) ∧
      runWord 0x30000000FFFFFD00 = some (0xFFFFFFFE, 0x80) := by decide

/-- Both ends of the accepted range, and one step outside each (section 2.1). -/
theorem test_c2cnt_range :
    runWord 0x3000000000FFFEFF = some (0x00007FFF, 0x80) ∧ runWord 0x3000000000FFFF00 = some (0x12345678, 0xE3) ∧
      runWord 0x30000000FEFFFF00 = some (0xFFFF8000, 0x80) ∧ runWord 0x30000000FEFFFEFF = some (0x12345678, 0xE3) := by decide

/-- Section 2.4: a field inside an all-ones word, the whole word, the clearing of two bits. -/
theorem test_pack :
    runWord 0x403900050000FFFF = some (0x0000FEFF, 0x80) ∧ runWord 0x410FABCD00001234 = some (0x0000ABCD, 0x80) ∧
      runWord 0x402F00000000C000 = some (0x00000000, 0x80) := by decide

/-- VALUE_WIDE, GEOMETRY before VALUE_WIDE, RSVD before both (section 2.4). -/
theorem test_pack_fails :
    runWord 0x4026000400000000 = some (0x12345678, 0xE5) ∧ runWord 0x4006010000000000 = some (0x12345678, 0xE4) ∧
      runWord 0x4226000200000000 = some (0x12345678, 0xE2) := by decide

/-- Section 2.5: bits 11:8, no sign extension, bit 0. -/
theorem test_unpack :
    runWord 0x504B00000000ABCD = some (0x0000000B, 0x80) ∧ runWord 0x510F000000008000 = some (0x00008000, 0x80) ∧
      runWord 0x5020000000000000 = some (0x12345678, 0xE4) := by decide

/-- Section 2.6: DATA_READY, CONV and ALERTS of 0x2A5A and 0xC000, and an undefined id. -/
theorem test_getf :
    runWord 0x6002000000002A5A = some (0x00000001, 0x80) ∧ runWord 0x6005000000002A5A = some (0x00000004, 0x80) ∧
      runWord 0x600B00000000C000 = some (0x00000003, 0x80) ∧ runWord 0x600C000000000000 = some (0x12345678, 0xE6) := by decide

/-- Section 2.7: CONV to 7, status bits kept, SOFT_RESET cleared. -/
theorem test_setf :
    runWord 0x7005000700000220 = some (0x000003A0, 0x80) ∧ runWord 0x700400030000F000 = some (0x0000FC00, 0x80) ∧
      runWord 0x700A00000000C002 = some (0x0000C000, 0x80) := by decide

/-- BAD_FIELD, READ_ONLY before VALUE_WIDE, VALUE_WIDE, RSVD first (section 2.7). -/
theorem test_setf_fails :
    runWord 0x700C000000000000 = some (0x12345678, 0xE6) ∧ runWord 0x7000000900000000 = some (0x12345678, 0xE7) ∧
      runWord 0x7009000200000220 = some (0x12345678, 0xE5) ∧ runWord 0x7010000900000000 = some (0x12345678, 0xE2) := by decide

/-- Section 2.8, S cells, and one G cell at the default of the parameter. -/
theorem test_lat :
    runWord 0x8000000000000000 = some (0x0000001F, 0x80) ∧ runWord 0x8000000300000004 = some (0x000007D0, 0x80) ∧
      runWord 0x8000000200000007 = some (0x00007D00, 0x80) ∧ runWord 0x8000000200000006 = some (0x00003E80, 0x80) := by decide

/-- LAT_INDEX compares all bits of A and B (section 2.8). -/
theorem test_lat_index :
    runWord 0x8000000000000100 = some (0x12345678, 0xE8) ∧ runWord 0x8000000400000000 = some (0x12345678, 0xE8) ∧
      runWord 0x8000FFFFFFFFFFFF = some (0x12345678, 0xE8) := by decide

/-- ILLEGAL_OP wins over RSVD (section 2.9). -/
theorem test_illegal_opcode :
    runWord 0xFFFFFFFFFFFFFFFF = some (0x12345678, 0xE1) ∧ runWord 0x1FFFFFFFFFFFFFFF = some (0x12345678, 0xE2) := by decide

/-! ## Edges (section 2.10) -/

theorem test_reset_edge :
    shows (clockEdge ⟨true, true, 0x1000000000000001⟩ (tmpcState 0x12345678 true true 5 true)) = some (0, 0x00) := by decide

theorem test_commit_keeps_errs :
    shows (clockEdge ⟨false, true, 0x1000000000000001⟩ (tmpcState 0x12345678 true true 5 true)) = some (0x200, 0xC0) ∧
      shows (clockEdge ⟨false, true, 0x8000000000000008⟩ (tmpcState 0x200 false true 0 true)) = some (0x200, 0xE8) := by decide

theorem test_idle_edge :
    shows (clockEdge ⟨false, false, 0x1000000000000001⟩ (tmpcState 0x200 true true 8 true)) = some (0x200, 0x68) := by decide

/-- The instruction a table word stands for runs at the next step. -/
theorem test_withFetchWord_runs :
    decodeTableWord 64 0x7006000200000000 = some (.setf 0 2 6 0 0) ∧
      shows (step (State.reset.withFetchWord 64 0x7006000200000000)) = some (0x40, 0x80) := by decide

/-! ## The Sensor (section 3) -/

/-- E3 and E4: the first CONFIG read shows the alerts and consumes them, the second does not. -/
theorem test_config_read_clears_alerts :
    wordAndConfig (step (hostState 0xC220 [.readReg .config] [.host (drawn 0)])) = some (0xC220, 0x0220) ∧
      wordAndConfig (step (hostState 0x0220 [.readReg .config] [.host (drawn 0)])) = some (0x0220, 0x0220) := by decide

/-- W8, E7: DEVICE_ID arrives as the bytes 0x01, 0x17. -/
theorem test_device_id :
    transact paramsDefault (.read 0x0F 2) (drawn 0).regs State.reset.sensor = .done [0x01, 0x17] State.reset.sensor := by
  decide

/-- E5: a raw write sets the six mode fields; bits 15:12, 1 and 0 are the draw. -/
theorem test_config_write :
    wordAndConfig (step (hostState 0xFFFF [.writeReg .config 0x03A0] [.host (drawn 0x9001)])) = some (0, 0x93A1) := by decide

/-- E6: a write with bit 1 set resets the limits and takes the mode fields from `SENSOR_CONFIG_RESET`. -/
theorem test_soft_reset :
    let sn := { State.reset.sensor with tHighLimit := 1, tLowLimit := 2, config := 0x0FFC }
    (sn.writeReg paramsDefault .config 0x0222 (drawn 0).regs).tHighLimit = 0x6000 ∧
      (sn.writeReg paramsDefault .config 0x0222 (drawn 0).regs).tLowLimit = 0x8000 ∧
      (sn.writeReg paramsDefault .config 0x0222 (drawn 0).regs).config = 0x0220 := by decide

/-- R47 and R44: what the spec tells a model to stop on, whether or not the transaction would reach the Sensor. -/
theorem test_ill_formed_transactions :
    step (hostState 0 [.bus (.read 0x01 1)] [.host unreached]) = .refused .transferLength ∧
      step (hostState 0 [] [.otherHost (.write 0x01 [0]) unreached]) = .refused .transferLength ∧
      step (hostState 0 [.bus (.write 0x10 [0, 0])] [.host (drawn 0)]) = .fault .sensorAddress :=
  ⟨rfl, rfl, rfl⟩

/-- R15 and R109: a transaction that fails before the Sensor leaves it alone, and the Host reports the error. -/
theorem test_unreached_read :
    wordAndConfig (step (hostState 0xC220 [.readReg .config] [.host unreached])) = some (0, 0xC220) := by decide

/-- P1 steps 2 to 4: the averaging setter on CONFIG = 0x0000. -/
theorem test_averaging_setter :
    wordAndConfig (core.run 3 (hostState 0 (setterSeq 6 2) [.host (drawn 0), .host (drawn 0), .host (drawn 0)])) =
      some (0x0000, 0x0040) := by decide

/-! ## Assembly (section 2's command column) -/

theorem test_assemble_command_lines :
    assembleText "PACK 0x1234, 43981, 15, 16" = some ⟨false, true, 0x410FABCD00001234⟩ ∧
      assembleText "GETF 0xC000, ALERTS" = some ⟨false, true, 0x600B00000000C000⟩ ∧
      assembleText "IDLE" = some ⟨false, false, 0⟩ ∧
      assembleText ".word 0x9000000000000000" = some ⟨false, true, 0x9000000000000000⟩ := by decide

/-- P2 steps 2 and 4, P5 step 7, P1 step 6. -/
theorem test_assemble_pseudo_lines :
    assembleText "LIMIT q(192.0)" = some ⟨false, true, 0x3000000000C00000⟩ ∧
      assembleText "LIMIT q(-40.0)" = some ⟨false, true, 0x30000000FFD80000⟩ ∧
      assembleText "SET.SOFT_RESET 0x0220" = some ⟨false, true, 0x700A000100000220⟩ ∧
      assembleText "GET.AVG 0x0040" = some ⟨false, true, 0x6006000000000040⟩ := by decide

/-- R68, R69: lines the assembler refuses.  The last two are beyond Q16.16 (R12). -/
theorem test_assemble_refuses :
    assembleText "C2CNT q(0.1)" = none ∧ assembleText "CNT2C 65536" = none ∧
      assembleText "SET.ALERTS 0x0000, 1" = none ∧ assembleText "PACK 0, 0, 16, 1" = none ∧
      assembleText "C2CNT q(32768)" = none ∧ assembleText "LIMIT q(40000.0)" = none := by decide

/-- R12: the ends of Q16.16, -32768.0 and the largest integer. -/
theorem test_assemble_q16_ends :
    assembleText "C2CNT q(-32768.0)" = some ⟨false, true, 0x3000000080000000⟩ ∧
      assembleText "C2CNT q(32767)" = some ⟨false, true, 0x300000007FFF0000⟩ := by decide

/-- R70: operands printed in hex, in the order of rule R68; an illegal OP prints as `.word`. -/
theorem test_disassemble :
    disassembleText 0x4026000200000000 = "PACK 0x0000, 0x0002, 0x6, 0x02".toList ∧
      disassembleText 0x9000000000000000 = ".word 0x9000000000000000".toList := by decide

/-! ## Witnesses: the hypotheses of each obligation, met together, clause by clause -/

theorem witness_EncodeOfDecodeIsTheWord :
    ∃ (c : Cmd) (i : Instr), decode c = .ok i := ⟨0x4226000200010000, .pack 0 2 6 2 1 1, by decide⟩

theorem witness_OpcodeAloneSelectsTheCommand :
    (∃ op : BitVec 4, op = 0) ∧ (∃ op : BitVec 4, op.toNat > 8 ∧ op = 9) ∧ ∃ op : BitVec 4, op.toNat > 8 ∧ op = 15 :=
  ⟨⟨0, rfl⟩, ⟨9, by decide⟩, ⟨15, by decide⟩⟩

theorem witness_ReservedBitsFailWithRsvd :
    ∃ i : Instr, encode i &&& rsvdMask (opField (encode i)) ≠ 0 := ⟨.lat 0 0 1, by decide⟩

theorem witness_AcceptedEdgeCommitsTheResult :
    (∃ c v, evalCmd latRomDefault c = .ok v) ∧ ∃ c e, evalCmd latRomDefault c = .fail e :=
  ⟨⟨0x1000000000000190, 0x00032000, by decide⟩, ⟨0, .illegalOp, by decide⟩⟩

theorem witness_ResultDependsOnTheCommandAlone :
    (∃ i s s', s ≠ s' ∧ s.params.latRom = s'.params.latRom ∧ ∃ v, Succeeds i s v) ∧
      ∃ i s s', s ≠ s' ∧ s.params.latRom = s'.params.latRom ∧ ∃ k, FailsWith i s k :=
  ⟨⟨.cnt2c 1 0 0 0, State.reset, tmpcState 7 true true 5 false, by decide, rfl, 0x200, rfl⟩,
    ⟨.lat 8 0 0, State.reset, tmpcState 7 true true 5 false, by decide, rfl, 8, rfl⟩⟩

theorem witness_CountToCelsiusIsExact :
    (∃ (aHi b : Half) (p : BitVec 12), aHi = 0 ∧ b = 0 ∧ p = 0) ∧
      ∃ (aHi b : Half) (p : BitVec 12), ¬(aHi = 0 ∧ b = 0 ∧ p = 0) :=
  ⟨⟨0, 0, 0, by decide⟩, ⟨0xFFFF, 0, 0, by decide⟩⟩

theorem witness_CountToFahrenheitIsNearest :
    (∃ (aHi b : Half) (p : BitVec 12), aHi = 0 ∧ b = 0 ∧ p = 0) ∧
      ∃ (aHi b : Half) (p : BitVec 12), ¬(aHi = 0 ∧ b = 0 ∧ p = 0) :=
  ⟨⟨0, 0, 0, by decide⟩, ⟨0, 0, 0x800, by decide⟩⟩

/-- Both accepted ends, and the first input refused beyond each (rule R72's corner cases). -/
theorem witness_CelsiusToCountRoundsToNearestEven :
    (∃ cin : Word, -16777472 ≤ cin.toInt ∧ cin.toInt ≤ 16776959 ∧ cin.toInt = -16777472) ∧
      (∃ cin : Word, -16777472 ≤ cin.toInt ∧ cin.toInt = 16776959) ∧ (∃ cin : Word, cin.toInt < -16777472) ∧
      (∃ cin : Word, 16776959 < cin.toInt) ∧ ∃ (b : Half) (p : BitVec 12), ¬(b = 0 ∧ p = 0) :=
  ⟨⟨0xFEFFFF00, by decide⟩, ⟨0x00FFFEFF, by decide⟩, ⟨0xFEFFFEFF, by decide⟩, ⟨0x00FFFF00, by decide⟩,
    ⟨1, 0, by decide⟩⟩

theorem witness_ConverterLaws :
    (∃ c c' v v' s, c.toInt ≤ c'.toInt ∧ Succeeds (.c2cnt c 0 0) s v ∧ Succeeds (.c2cnt c' 0 0) s v') ∧
      (∃ n n' v v' s, n.toInt < n'.toInt ∧ n'.toInt = n.toInt + 1 ∧ Succeeds (.cnt2c n 0 0 0) s v ∧
        Succeeds (.cnt2c n' 0 0 0) s v') ∧
      ∃ n n' v v' s, n.toInt < n'.toInt ∧ n'.toInt = n.toInt + 1 ∧ Succeeds (.cnt2f n 0 0 0) s v ∧
        Succeeds (.cnt2f n' 0 0 0) s v' :=
  ⟨⟨0xFFFFFF00, 0x00000300, 0, 2, State.reset, by decide, rfl, rfl⟩,
    ⟨0xFFFF, 0, 0xFFFFFE00, 0, State.reset, by decide, by decide, rfl, rfl⟩,
    ⟨0xFFFF, 0, 0x001FFC66, 0x00200000, State.reset, by decide, by decide, rfl, rfl⟩⟩

/-- The narrowest and the widest legal geometry, widths 0 and msb + 2, and values at both sides of the field. -/
theorem witness_PackReplacesExactlyTheField :
    (∃ (m : BitVec 4) (w : BitVec 5) (v : Half), 1 ≤ w.toNat ∧ w.toNat ≤ m.toNat + 1 ∧ v.toNat < 2 ^ w.toNat ∧ m = 0 ∧ w = 1) ∧
      (∃ (m : BitVec 4) (w : BitVec 5) (v : Half), w.toNat ≤ m.toNat + 1 ∧ v.toNat < 2 ^ w.toNat ∧ m = 15 ∧ w = 16 ∧
        v = 0xFFFF) ∧
      (∃ (m : BitVec 4) (w : BitVec 5) (v : Half), 1 ≤ w.toNat ∧ w.toNat ≤ m.toNat + 1 ∧ 2 ^ w.toNat ≤ v.toNat ∧ m = 6 ∧
        v = 4) ∧
      (∃ w : BitVec 5, w.toNat = 0) ∧ (∃ (m : BitVec 4) (w : BitVec 5), m.toNat + 1 < w.toNat ∧ m = 15 ∧ w = 17) ∧
      ∃ (aHi : Half) (pHi : BitVec 3), ¬(aHi = 0 ∧ pHi = 0) :=
  ⟨⟨0, 1, 1, by decide⟩, ⟨15, 16, 0xFFFF, by decide⟩, ⟨6, 2, 4, by decide⟩, ⟨0, rfl⟩, ⟨15, 17, by decide⟩,
    ⟨0, 4, by decide⟩⟩

theorem witness_UnpackReadsExactlyTheField :
    (∃ (m : BitVec 4) (w : BitVec 5), 1 ≤ w.toNat ∧ w.toNat ≤ m.toNat + 1 ∧ m = 0) ∧
      (∃ (m : BitVec 4) (w : BitVec 5), 1 ≤ w.toNat ∧ w.toNat ≤ m.toNat + 1 ∧ w = 16) ∧
      (∃ w : BitVec 5, w.toNat = 0) ∧ (∃ (m : BitVec 4) (w : BitVec 5), m.toNat + 1 < w.toNat ∧ m = 0 ∧ w = 2) ∧
      ∃ (aHi b : Half) (pHi : BitVec 3), ¬(aHi = 0 ∧ b = 0 ∧ pHi = 0) :=
  ⟨⟨0, 1, by decide⟩, ⟨15, 16, by decide⟩, ⟨0, rfl⟩, ⟨0, 2, by decide⟩, ⟨0, 1, 0, by decide⟩⟩

theorem witness_GetfReadsTheNamedConfigField :
    (∃ f : BitVec 4, f.toNat ≤ 11 ∧ f = 11) ∧ (∃ f : BitVec 4, 11 < f.toNat ∧ f = 12) ∧
      ∃ (aHi b : Half) (pHi : BitVec 8), ¬(aHi = 0 ∧ b = 0 ∧ pHi = 0) :=
  ⟨⟨11, by decide⟩, ⟨12, by decide⟩, ⟨0, 0, 1, by decide⟩⟩

/-- Each id class at its ends, and a value at each side of CONV's three bits. -/
theorem witness_SetfReplacesTheNamedConfigField :
    (∃ f : BitVec 4, 4 ≤ f.toNat ∧ f.toNat ≤ 10 ∧ f = 4) ∧ (∃ f : BitVec 4, 4 ≤ f.toNat ∧ f.toNat ≤ 10 ∧ f = 10) ∧
      (∃ (f : BitVec 4) (row : Field) (v : Half), fieldTable f.toNat = some row ∧ v.toNat < 2 ^ row.width ∧ v = 7) ∧
      (∃ (f : BitVec 4) (row : Field) (v : Half), fieldTable f.toNat = some row ∧ 2 ^ row.width ≤ v.toNat ∧ v = 8) ∧
      (∃ f : BitVec 4, f.toNat ≤ 3 ∧ f = 3) ∧ (∃ f : BitVec 4, f.toNat = 11) ∧ (∃ f : BitVec 4, 11 < f.toNat ∧ f = 12) ∧
      ∃ (aHi : Half) (pHi : BitVec 8), ¬(aHi = 0 ∧ pHi = 0) :=
  ⟨⟨4, by decide⟩, ⟨10, by decide⟩, ⟨5, ⟨9, 3, true⟩, 7, by decide⟩, ⟨5, ⟨9, 3, true⟩, 8, by decide⟩, ⟨3, by decide⟩,
    ⟨11, rfl⟩, ⟨12, by decide⟩, ⟨1, 0, by decide⟩⟩

theorem witness_BitFieldLaws :
    (∃ (m : BitVec 4) (w : BitVec 5) (v : Half), 1 ≤ w.toNat ∧ w.toNat ≤ m.toNat + 1 ∧ v.toNat < 2 ^ w.toNat) ∧
      (∃ (f : BitVec 4) (row : Field), fieldTable f.toNat = some row ∧ row.writable = true) ∧
      ∃ (f f' : BitVec 4) (row row' : Field) (v v' : Half), fieldTable f.toNat = some row ∧
        fieldTable f'.toNat = some row' ∧ row.writable = true ∧ row'.writable = true ∧
        fmask row.msb row.width &&& fmask row'.msb row'.width = 0 ∧ v.toNat < 2 ^ row.width ∧ v'.toNat < 2 ^ row'.width :=
  ⟨⟨9, 3, 5, by decide⟩, ⟨6, ⟨6, 2, true⟩, by decide⟩, ⟨5, 6, ⟨9, 3, true⟩, ⟨6, 2, true⟩, 7, 3, by decide⟩⟩

theorem witness_LatReadsTheRom :
    (∃ (cycle : Word) (avg : Half), cycle.toNat ≤ 7 ∧ avg.toNat ≤ 3 ∧ cycle = 7 ∧ avg = 3) ∧
      (∃ cycle : Word, 7 < cycle.toNat ∧ cycle = 8) ∧ (∃ avg : Half, 3 < avg.toNat ∧ avg = 4) ∧ ∃ p : BitVec 12, p ≠ 0 :=
  ⟨⟨7, 3, by decide⟩, ⟨8, by decide⟩, ⟨4, by decide⟩, ⟨1, by decide⟩⟩

theorem witness_LatSourceCells : ∃ a : Half, a.toNat ≤ 3 ∧ a = 3 := ⟨3, by decide⟩

theorem witness_LatRomLaws :
    (∃ s : State, s.params.latRom = latRomDefault) ∧ (∃ c a a' : Nat, 4 ≤ c ∧ c ≤ 7 ∧ a ≤ 3 ∧ a' ≤ 3 ∧ a ≠ a') ∧
      ∃ c c' a a' : Nat, c ≤ c' ∧ c' ≤ 7 ∧ a ≤ a' ∧ a' ≤ 3 ∧ c ≠ c' ∧ a ≠ a' :=
  ⟨⟨State.reset, rfl⟩, ⟨7, 0, 3, by decide⟩, ⟨0, 7, 0, 3, by decide⟩⟩

theorem witness_RomReadIsIdempotent : ∃ (cycle : Word) (avg : Half), cycle.toNat ≤ 7 ∧ avg.toNat ≤ 3 := ⟨7, 3, by decide⟩

theorem witness_StepRunsTheDecodedCommand :
    ∃ (s : State) (c : Cmd) (rest : List Turn) (i : Instr), s.agenda = .edge ⟨false, true, c⟩ :: rest ∧ decode c = .ok i :=
  ⟨State.reset.presentNext 0x8000000300000004, 0x8000000300000004, [], .lat 4 3 0, rfl, by decide⟩

theorem witness_StepIsOneTmpcEdge :
    (∃ s t p, step s = .next t ∧ s.nextPins = some p ∧ p.cmdValid = true) ∧
      (∃ s t p, step s = .next t ∧ s.nextPins = some p ∧ p.rst = true) ∧ ∃ s t, step s = .next t ∧ s.nextPins = none :=
  ⟨⟨State.reset.presentNext 0x8000000300000004, _, _, rfl, rfl, rfl⟩,
    ⟨hostState 0 [.reset] [.host (drawn 0)], _, _, rfl, rfl, rfl⟩, ⟨hostState 0 [] [.sensor .highAlert], _, rfl, rfl⟩⟩

theorem witness_EveryStepKeepsTheInvariant : ∃ s t : State, s.Inv ∧ step s = .next t ∧ s.agenda ≠ [] :=
  ⟨State.reset.presentNext 0, _, by decide, rfl, by decide⟩

theorem witness_ResetEdgeStartsFromAnyState :
    ∃ s t : State, s.nextIsReset = true ∧ step s = .next t ∧ ¬s.tmpc.Coherent :=
  ⟨{ tmpcState 7 true false 15 true with agenda := [.edge ⟨true, true, 0⟩] }, _, by decide, rfl, by decide⟩

theorem witness_FlagsFollowTheEdges :
    (∃ s t p, step s = .next t ∧ s.nextPins = some p ∧ p.rst = true) ∧
      (∃ s t p v, step s = .next t ∧ s.nextPins = some p ∧ p.rst = false ∧ p.cmdValid = true ∧
        evalCmd s.params.latRom p.cmd = .ok v) ∧
      (∃ s t p e, step s = .next t ∧ s.nextPins = some p ∧ p.rst = false ∧ p.cmdValid = true ∧
        evalCmd s.params.latRom p.cmd = .fail e) ∧
      ∃ s t p, step s = .next t ∧ s.nextPins = some p ∧ p.rst = false ∧ p.cmdValid = false :=
  ⟨⟨hostState 0 [.reset] [.host (drawn 0)], _, _, rfl, rfl, rfl⟩,
    ⟨State.reset.presentNext 0x1000000000000190, _, _, 0x00032000, rfl, rfl, rfl, rfl, by decide⟩,
    ⟨State.reset.presentNext 0, _, _, .illegalOp, rfl, rfl, rfl, rfl, by decide⟩,
    ⟨State.reset, _, _, rfl, rfl, rfl, rfl⟩⟩

theorem witness_StickyErrorFlagOnlyResetClears :
    ∃ s t : State, step s = .next t ∧ s.tmpc.errs = true ∧ s.nextIsReset = false :=
  ⟨(tmpcState 0 false true 0 true).presentNext 0x1000000000000190, _, rfl, rfl, by decide⟩

theorem witness_ResultRegisterWrittenOnlyBySuccess :
    (∃ s t : State, step s = .next t ∧ t.tmpc.res ≠ s.tmpc.res ∧ s.nextIsReset = true) ∧
      ∃ s t : State, step s = .next t ∧ t.tmpc.res ≠ s.tmpc.res ∧ s.nextIsReset = false :=
  ⟨⟨{ tmpcState 7 false false 0 true with agenda := [.edge ⟨true, false, 0⟩] }, _, rfl, by decide, by decide⟩,
    ⟨State.reset.presentNext 0x1000000000000190, _, rfl, by decide, by decide⟩⟩

theorem witness_NoStepChangesTheParameters : ∃ s t : State, step s = .next t ∧ s.agenda ≠ [] :=
  ⟨State.reset.presentNext 0x8000000000000000, _, rfl, by decide⟩

theorem witness_TmpcNeverSeesTheSensor :
    ∃ s s' t t' : State, s.tmpc = s'.tmpc ∧ s.params.latRom = s'.params.latRom ∧ s.nextPins = s'.nextPins ∧
      step s = .next t ∧ step s' = .next t' ∧ s.sensor ≠ s'.sensor :=
  ⟨(hostState 0 [] []).presentNext 0x6005000000000220, (hostState 0xFFFF [] []).presentNext 0x6005000000000220, _, _,
    rfl, rfl, rfl, rfl, rfl, by decide⟩

/-- A stop of this Host's, a stop of another Host's, and a transaction that fails and does not stop. -/
theorem witness_OnlyBusTransactionsStop :
    (∃ s : State, (∀ t, step s ≠ .next t) ∧ ∃ tx d, s.nextTx = some (tx, d)) ∧
      (∃ s : State, (∀ t, step s ≠ .next t) ∧ s.host.todo = []) ∧
      ∃ s t : State, step s = .next t ∧ ∃ tx d, s.nextTx = some (tx, d) ∧ d.fate = .failsUnreached :=
  ⟨⟨hostState 0 [.bus (.read 0x10 2)] [.host (drawn 0)], fun t h => (by cases h), _, _, rfl⟩,
    ⟨hostState 0 [] [.otherHost (.read 0x01 3) unreached], fun t h => (by cases h), rfl⟩,
    ⟨hostState 0 [.readReg .config] [.host unreached], _, rfl, _, _, rfl, rfl⟩⟩

theorem witness_EmptyAgendaIsAnIdleEdge : ∃ s : State, s.agenda = [] ∧ s.tmpc.done = true :=
  ⟨tmpcState 0 false false 0 true, rfl, rfl⟩

theorem witness_ConfigReadConsumesTheAlerts :
    ∃ (s : State) (d : Draw) (rest : List Turn) (ops : List HostOp), s.AddrMapOk ∧ s.agenda = .host d :: rest ∧
      s.host.todo = .readReg .config :: ops ∧ d.fate = .completes ∧ s.sensor.config &&& 0xC000 ≠ 0 :=
  ⟨hostState 0xC220 [.readReg .config] [.host (drawn 0)], drawn 0, [], [], by decide, rfl, rfl, rfl, by decide⟩

theorem witness_SecondConfigReadShowsNoAlert :
    ∃ (s : State) (d d' : Draw) (rest : List Turn) (ops : List HostOp), s.AddrMapOk ∧
      s.agenda = .host d :: .host d' :: rest ∧ s.host.todo = .readReg .config :: .readReg .config :: ops ∧
      d.fate = .completes ∧ d'.fate = .completes ∧ s.sensor.config &&& 0xC000 ≠ 0 :=
  ⟨hostState 0xC220 [.readReg .config, .readReg .config] [.host (drawn 0), .host (drawn 0)], drawn 0, drawn 0, [], [],
    by decide, rfl, rfl, rfl, rfl, by decide⟩

theorem witness_OtherReadsHaveNoSideEffect :
    ∃ (s : State) (r : SensorReg) (d : Draw) (rest : List Turn) (ops : List HostOp), s.AddrMapOk ∧
      s.agenda = .host d :: rest ∧ s.host.todo = .readReg r :: ops ∧ r ≠ .config ∧ d.fate = .completes :=
  ⟨hostState 0 [.readReg .deviceId] [.host (drawn 0)], .deviceId, drawn 0, [], [], by decide, rfl, rfl, by decide, rfl⟩

theorem witness_ConfigWriteSetsTheModeFields :
    ∃ (s : State) (v : Half) (d : Draw) (rest : List Turn) (ops : List HostOp), s.AddrMapOk ∧
      s.agenda = .host d :: rest ∧ s.host.todo = .writeReg .config v :: ops ∧ d.fate = .completes ∧
      v.getLsbD 1 = false :=
  ⟨hostState 0 [.writeReg .config 0x03A0] [.host (drawn 0)], 0x03A0, drawn 0, [], [], by decide, rfl, rfl, rfl, by decide⟩

theorem witness_SoftResetRestoresTheDefaults :
    ∃ (s : State) (v : Half) (d : Draw) (rest : List Turn) (ops : List HostOp), s.AddrMapOk ∧
      s.agenda = .host d :: rest ∧ s.host.todo = .writeReg .config v :: ops ∧ d.fate = .completes ∧
      v.getLsbD 1 = true :=
  ⟨hostState 0 [.writeReg .config 0x0222] [.host (drawn 0)], 0x0222, drawn 0, [], [], by decide, rfl, rfl, rfl, by decide⟩

theorem witness_SensorStepsChangeOnlyWhatTheyName :
    (∃ (s : State) (rest : List Turn) (e : SensorEvent), s.agenda = .sensor e :: rest ∧ ∃ v, e = .temp v) ∧
      ∃ (s : State) (rest : List Turn) (e : SensorEvent), s.agenda = .sensor e :: rest ∧ ∀ v, e ≠ .temp v :=
  ⟨⟨hostState 0 [] [.sensor (.temp 0x0190)], [], _, rfl, 0x0190, rfl⟩,
    ⟨hostState 0 [] [.sensor .highAlert], [], _, rfl, fun _ h => nomatch h⟩⟩

/-- Reads and writes, this Host's and another's, completing and failing.  Index 0x0F is a named register's, 0x0E is
nobody's and 0x10 does not exist, so no address falls under two clauses. -/
theorem witness_IllFormedTransactionsStop :
    (∃ (s : State) (d : Draw) (rest : List Turn) (tx : BusTx), s.agenda = .otherHost tx d :: rest ∧ tx.byteCount ≠ 2 ∧
      tx = .write 1 [] ∧ d.fate = .failsUnreached) ∧
      (∃ (s : State) (d : Draw) (rest : List Turn) (tx : BusTx) (ops : List HostOp), s.agenda = .host d :: rest ∧
        s.host.todo = .bus tx :: ops ∧ tx.byteCount ≠ 2 ∧ tx = .read 0x10 3) ∧
      (∃ (s : State) (d : Draw) (rest : List Turn) (tx : BusTx) (ops : List HostOp), s.agenda = .host d :: rest ∧
        s.host.todo = .bus tx :: ops ∧ tx.byteCount = 2 ∧ 0x0F < tx.addr.toNat ∧ tx = .write 0x10 [0, 0]) ∧
      ∃ (s : State) (d : Draw) (rest : List Turn) (tx : BusTx), s.agenda = .otherHost tx d :: rest ∧ tx.byteCount = 2 ∧
        tx.addr.toNat ≤ 0x0F ∧ (∀ r, regAddr s.params.sensorRegAddr r ≠ tx.addr) ∧ tx = .write 0x0E [0, 0] :=
  ⟨⟨hostState 0 [] [.otherHost (.write 1 []) unreached], _, _, _, rfl, by decide, rfl, rfl⟩,
    ⟨hostState 0 [.bus (.read 0x10 3)] [.host (drawn 0)], _, _, _, _, rfl, rfl, by decide, rfl⟩,
    ⟨hostState 0 [.bus (.write 0x10 [0, 0])] [.host unreached], _, _, _, _, rfl, rfl, by decide, by decide, rfl⟩,
    ⟨hostState 0 [] [.otherHost (.write 0x0E [0, 0]) (drawn 0)], _, _, _, rfl, by decide, by decide,
      fun r => by cases r <;> decide, rfl⟩⟩

theorem witness_SetterChangesOneModeField :
    ∃ (s : State) (f : BitVec 4) (row : Field) (v : Half) (d1 d2 d3 : Draw) (rest : List Turn) (ops : List HostOp),
      s.AddrMapOk ∧ 4 ≤ f.toNat ∧ f.toNat ≤ 9 ∧ fieldTable f.toNat = some row ∧ v.toNat < 2 ^ row.width ∧
      d1.fate = .completes ∧ d2.fate = .completes ∧ d3.fate = .completes ∧ d1.regs.config.getLsbD 1 = false ∧
      s.agenda = .host d1 :: .host d2 :: .host d3 :: rest ∧ s.host.todo = setterSeq f v ++ ops :=
  ⟨hostState 0 (setterSeq 6 2) [.host (drawn 0), .host (drawn 0), .host (drawn 0)], 6, ⟨6, 2, true⟩, 2, drawn 0, drawn 0,
    drawn 0, [], [], by decide, by decide, by decide, by decide, by decide, rfl, rfl, rfl, by decide, rfl, by decide⟩

theorem witness_GetterReadsItsFieldAndConsumesTheAlerts :
    ∃ (s : State) (f : BitVec 4) (d1 d2 : Draw) (rest : List Turn) (ops : List HostOp), s.AddrMapOk ∧ f.toNat ≤ 11 ∧
      d1.fate = .completes ∧ s.agenda = .host d1 :: .host d2 :: rest ∧ s.host.todo = getterSeq f ++ ops :=
  ⟨hostState 0xC220 (getterSeq 11) [.host (drawn 0), .host (drawn 0)], 11, drawn 0, drawn 0, [], [], by decide, by decide,
    rfl, rfl, by decide⟩

theorem witness_CountSetterWritesTheRoundedCount :
    ∃ (s : State) (cin : Word) (d1 d2 : Draw) (rest : List Turn) (ops : List HostOp) (r : SensorReg), s.AddrMapOk ∧
      (r = .tHighLimit ∨ r = .tLowLimit ∨ r = .tempOffset) ∧ (-16777472 ≤ cin.toInt ∧ cin.toInt ≤ 16776959) ∧
      d2.fate = .completes ∧ s.agenda = .host d1 :: .host d2 :: rest ∧ s.host.todo = countSetterSeq r cin ++ ops :=
  ⟨hostState 0 (countSetterSeq .tLowLimit 0xFFD80000) [.host (drawn 0), .host (drawn 0)], 0xFFD80000, drawn 0, drawn 0, [],
    [], .tLowLimit, by decide, by decide, by decide, rfl, rfl, by decide⟩

theorem witness_TemperatureGetterConvertsTheCount :
    (∃ (s : State) (r : SensorReg) (d1 d2 : Draw) (rest : List Turn) (ops : List HostOp), s.AddrMapOk ∧ r ≠ .config ∧
      d1.fate = .completes ∧ s.agenda = .host d1 :: .host d2 :: rest ∧ s.host.todo = celsiusGetterSeq r ++ ops) ∧
      ∃ (s : State) (r : SensorReg) (d1 d2 : Draw) (rest : List Turn) (ops : List HostOp), s.AddrMapOk ∧ r ≠ .config ∧
        d1.fate = .completes ∧ s.agenda = .host d1 :: .host d2 :: rest ∧ s.host.todo = fahrenheitGetterSeq r ++ ops :=
  ⟨⟨hostState 0 (celsiusGetterSeq .temp) [.host (drawn 0), .host (drawn 0)], .temp, drawn 0, drawn 0, [], [], by decide,
      by decide, rfl, rfl, by decide⟩,
    ⟨hostState 0 (fahrenheitGetterSeq .tempOffset) [.host (drawn 0), .host (drawn 0)], .tempOffset, drawn 0, drawn 0, [], [],
      by decide, by decide, rfl, rfl, by decide⟩⟩

theorem witness_FailedConversionIsNotWritten :
    ∃ (s : State) (r : SensorReg) (cin : Word) (d1 d2 : Draw) (rest : List Turn) (ops : List HostOp),
      (cin.toInt < -16777472 ∨ 16776959 < cin.toInt) ∧ s.agenda = .host d1 :: .host d2 :: rest ∧
      s.host.todo = countSetterSeq r cin ++ ops :=
  ⟨hostState 0 (countSetterSeq .tLowLimit 0x012C0000) [.host (drawn 0), .host (drawn 0)], .tLowLimit, 0x012C0000, drawn 0,
    drawn 0, [], [], by decide, rfl, by decide⟩

/-- This Host sets AVG of 0x0220 to 2, the other Host sets CONV to 7; the old AVG is 1, so the loss shows. -/
theorem witness_InterleavedReadModifyWriteLosesAChange :
    ∃ (s : State) (f f' : BitVec 4) (row' : Field) (v v' w2 y : Half) (d1 dr2 d2 d3 d4 : Draw) (rest : List Turn)
      (ops : List HostOp), s.AddrMapOk ∧ 4 ≤ f.toNat ∧ f.toNat ≤ 9 ∧ 4 ≤ f'.toNat ∧ f'.toNat ≤ 9 ∧ f ≠ f' ∧
      (∀ row, fieldTable f.toNat = some row → v.toNat < 2 ^ row.width) ∧
      fieldTable f'.toNat = some row' ∧ v'.toNat < 2 ^ row'.width ∧
      d1.fate = .completes ∧ dr2.fate = .completes ∧ d3.fate = .completes ∧ d4.fate = .completes ∧
      d1.regs.config.getLsbD 1 = false ∧ dr2.regs.config.getLsbD 1 = false ∧
      w2 = ((s.sensor.readReg .config d1.regs).2.readReg .config dr2.regs).1 ∧
      y = insertField w2 row'.msb row'.width v'.toNat ∧
      s.agenda = .host d1 :: .otherHost (.read (regAddr s.params.sensorRegAddr .config) 2) dr2 :: .host d2 :: .host d3 ::
        .otherHost (.write (regAddr s.params.sensorRegAddr .config) (wireBytes y)) d4 :: rest ∧
      s.host.todo = setterSeq f v ++ ops ∧ (decodeConfig s.sensor.config).member f.toNat ≠ some v.toNat :=
  ⟨hostState 0x0220 (setterSeq 6 2)
      [.host (drawn 0), .otherHost (.read 1 2) (drawn 0), .host (drawn 0), .host (drawn 0),
        .otherHost (.write 1 [0x03, 0xA0]) (drawn 0)],
    6, 5, ⟨9, 3, true⟩, 2, 7, 0x0220, 0x03A0, drawn 0, drawn 0, drawn 0, drawn 0, drawn 0, [], [], by decide, by decide,
    by decide, by decide, by decide, by decide, fun row h => (by cases h; decide), by decide, by decide, rfl, rfl, rfl, rfl,
    by decide, by decide, by decide, by decide, rfl, by decide, by decide⟩

theorem witness_SoftResetSequenceResetsTheSensor :
    ∃ (s : State) (d1 d2 d3 d4 : Draw) (rest : List Turn), s.AddrMapOk ∧ d1.fate = .completes ∧ d3.fate = .completes ∧
      s.agenda = .host d1 :: .host d2 :: .host d3 :: .host d4 :: rest ∧ s.host.todo = softResetSeq :=
  ⟨hostState 0x0220 softResetSeq [.host (drawn 0), .host (drawn 0), .host (drawn 0), .host (drawn 0)], drawn 0, drawn 0,
    drawn 0, drawn 0, [], by decide, rfl, rfl, rfl, rfl⟩

/-- RES[0] = 0; RES[0] = 1 exactly at the deadline; RES[0] = 1 one ms before it. -/
theorem witness_PollTestFollowsTheProtocol :
    (∃ (s : State) (d : Draw) (rest : List Turn) (ops : List HostOp), s.agenda = .host d :: rest ∧
      s.host.todo = .pollCheck :: ops ∧ s.tmpc.res.getLsbD 0 = false) ∧
      (∃ (s : State) (d : Draw) (rest : List Turn) (ops : List HostOp), s.agenda = .host d :: rest ∧
        s.host.todo = .pollCheck :: ops ∧ s.tmpc.res.getLsbD 0 = true ∧ s.host.deadline ≤ s.host.now + d.elapsed) ∧
      ∃ (s : State) (d : Draw) (rest : List Turn) (ops : List HostOp), s.agenda = .host d :: rest ∧
        s.host.todo = .pollCheck :: ops ∧ s.tmpc.res.getLsbD 0 = true ∧ s.host.now + d.elapsed < s.host.deadline :=
  ⟨⟨hostState 0 [.pollCheck] [.host (drawn 0)], _, _, _, rfl, rfl, by decide⟩,
    ⟨{ tmpcState 1 false false 0 true with
        agenda := [.host (drawn 0)], host := { HostAgent.start with todo := [.pollCheck], deadline := 1 } },
      _, _, _, rfl, rfl, by decide, by decide⟩,
    ⟨{ tmpcState 1 false false 0 true with
        agenda := [.host (drawn 0)], host := { HostAgent.start with todo := [.pollCheck], deadline := 2 } },
      _, _, _, rfl, rfl, by decide, by decide⟩⟩

theorem witness_SoftResetPollEnds :
    ∃ (n : Nat) (s : State) (ds : List Draw), s.AddrMapOk ∧ (∀ d ∈ ds, d.fate = .completes) ∧ ds.length = 3 * (n + 1) ∧
      s.agenda = ds.map Turn.host ∧ s.host.todo = pollSeq ∧ s.host.verdict = .pending ∧
      s.host.deadline ≤ s.host.now + n * s.params.pollMs :=
  ⟨1, { State.reset with
      agenda := (List.replicate 6 (drawn 0x1000)).map Turn.host
      host := { HostAgent.start with todo := pollSeq, deadline := 100 } },
    List.replicate 6 (drawn 0x1000), by decide, by decide, by decide, rfl, rfl, rfl, by decide⟩

/-- The illegal opcodes at both ends of their ranges. -/
theorem witness_DisassemblyAssemblesBack :
    (∃ c : Cmd, opField c = 0 ∧ c = 0x0FFFFFFFFFFFFFFF) ∧ (∃ c : Cmd, 8 < (opField c).toNat ∧ c = 0x9000000000000000) ∧
      ∃ c : Cmd, 8 < (opField c).toNat ∧ c = 0xFFFFFFFFFFFFFFFF :=
  ⟨⟨0x0FFFFFFFFFFFFFFF, by decide⟩, ⟨0x9000000000000000, by decide⟩, ⟨0xFFFFFFFFFFFFFFFF, by decide⟩⟩

theorem witness_PrintedDisassemblyReadsBack :
    (∃ c : Cmd, opField c = 0 ∧ c = 0) ∧ ∃ c : Cmd, 8 < (opField c).toNat ∧ c = 0x9000000000000000 :=
  ⟨⟨0, by decide⟩, ⟨0x9000000000000000, by decide⟩⟩

/-- The ends of the count range from both sides, a tie-free negative Celsius value, and operands at each field's ends. -/
theorem witness_AssemblerEncodesOrRefuses :
    (∃ n : Int, -32768 ≤ n ∧ n ≤ 65535 ∧ n = -32768) ∧ (∃ n : Int, ¬(-32768 ≤ n ∧ n ≤ 65535) ∧ n = 65536) ∧
      (∃ cin : Int, -2147483648 ≤ cin ∧ cin ≤ 2147483647 ∧ cin = -1) ∧
      (∃ c v m w : Int, (0 ≤ c ∧ c < 65536) ∧ (0 ≤ v ∧ v < 65536) ∧ (0 ≤ m ∧ m ≤ 15) ∧ 0 ≤ w ∧ w ≤ 31 ∧ m = 15 ∧ w = 31) ∧
      (∃ m : Int, ¬(0 ≤ m ∧ m ≤ 15) ∧ m = 16) ∧ (∃ w : Int, ¬(0 ≤ w ∧ w ≤ 31) ∧ w = 32) ∧
      (∃ c a : Int, (0 ≤ c ∧ c < 4294967296) ∧ 0 ≤ a ∧ a < 65536 ∧ c = 4294967295) ∧
      ∃ w : Int, 0 ≤ w ∧ w < 18446744073709551616 ∧ w = 18446744073709551615 :=
  ⟨⟨-32768, by decide⟩, ⟨65536, by decide⟩, ⟨-1, by decide⟩, ⟨0, 65535, 15, 31, by decide⟩, ⟨16, by decide⟩,
    ⟨32, by decide⟩, ⟨4294967295, 0, by decide⟩, ⟨18446744073709551615, by decide⟩⟩

end Sys2Proof.Tests
end

/-! # The latency ROM: a read is free of side effects

A command commits one result, and that result depends only on the command and the ROM.  A commit leaves the ROM alone
and committing the same result twice is committing it once, so repeating any command changes nothing. -/

namespace Sys2Proof.Machine

/-! ## Committing twice -/

/-- A commit overwrites every flag it writes with a value that does not depend on the old one. -/
@[simp] theorem Tmpc.commit_commit (t : Tmpc) (r : Result) : (t.commit r).commit r = t.commit r := by
  cases r with
  | ok v => rfl
  | fail e => rfl

@[simp] theorem State.commit_commit (s : State) (r : Result) : (s.commit r).commit r = s.commit r :=
  congrArg (fun t => { s with tmpc := t }) (Tmpc.commit_commit s.tmpc r)

/-- The ROM is the same after a command, so the command run again returns the same result and leaves the state as it
is. -/
theorem exec_after_commit (i : Instr) (s : State) :
    exec i (s.commit (evalInstr s.params.latRom i)) = .next (s.commit (evalInstr s.params.latRom i)) := by
  rw [exec_eq_commit, State.commit_params, State.commit_commit]

/-! ## The table's entries -/

/-- A read of the ROM through its 5-bit index is the table's entry: the default of `romRead` is not reached. -/
theorem romTable_getElem?_eq_romRead (l : LatRom) {n : Nat} (h : n < 32) :
    (romTable l)[n]? = some (romRead l (BitVec.ofNat 5 n)) := by
  have hlen : n < (romTable l).length := h
  have hidx : (BitVec.ofNat 5 n).toNat = n := Nat.mod_eq_of_lt h
  rw [romRead, hidx, List.getD_eq_getElem _ _ hlen, List.getElem?_eq_getElem hlen]

/-! ## Reserved bits -/

/-- A command has no reserved bit set exactly when each of its fields is zero under its part of the mask of R65. -/
theorem reservedSet_eq_false_iff_of_mask {i : Instr} {p : BitVec 12} {b : Half} {a : Word}
    (h : rsvdMask i.opcode = enc 0 p b a) :
    reservedSet i = false ↔ i.pBits &&& p = 0 ∧ i.bBits &&& b = 0 ∧ i.aBits &&& a = 0 := by
  have hop : i.opcode &&& 0 = 0 := BitVec.and_zero
  rw [reservedSet, bne_eq_false_iff_eq, h, encode, enc_and_eq_zero]
  exact and_iff_right hop

/-- LAT's reserved bits are exactly P (R65). -/
theorem reservedSet_lat_eq_false_iff (cycle : Word) (avg : Half) (p : BitVec 12) :
    reservedSet (.lat cycle avg p) = false ↔ p = 0 := by
  have hmask : rsvdMask (Instr.opcode (.lat cycle avg p)) = enc 0 (BitVec.allOnes 12) 0 0 := rfl
  rw [reservedSet_eq_false_iff_of_mask hmask]
  exact (and_iff_left ⟨BitVec.and_zero, BitVec.and_zero⟩).trans (and_ones_eq_zero rfl)

/-! ## LAT on legal operands -/

/-- LAT with legal operands and no reserved bit returns the ROM's entry (R91). -/
theorem evalInstr_lat_legal (l : LatRom) {cycle : Word} {avg : Half} (hc : cycle.toNat ≤ 7) (ha : avg.toNat ≤ 3) :
    evalInstr l (.lat cycle avg 0) = .ok (zext32 (romRead l (BitVec.ofNat 5 (4 * cycle.toNat + avg.toNat)))) :=
  (unlessReserved_of_clear ((reservedSet_lat_eq_false_iff cycle avg 0).2 rfl) _).trans (latResult_ok l hc ha)

/-- Settles O26: the first LAT commits the ROM's entry, which leaves the ROM, and so the second LAT's result, as it was;
committing that result again changes nothing. -/
theorem romReadIsIdempotent : Obligations.RomReadIsIdempotent := by
  intro cycle avg s hc ha
  have heval := evalInstr_lat_legal s.params.latRom hc ha
  have hagain := exec_after_commit (.lat cycle avg 0) s
  rw [heval] at hagain
  exact ⟨_, _, s.commit (.ok _), romTable_getElem?_eq_romRead _ (by omega), zext32_toNat _,
    succeeds_of_eval heval, succeeds_of_eval heval, rfl, succeeds_of_eval heval, hagain, rfl, rfl⟩

end Sys2Proof.Machine

/-! # The encoding: the command word as a number, the command OP selects, the reserved bits

A word is the concatenation of its four fields, so as a number it is their weighted sum and each field can be read back.
`decode` looks at OP alone to choose the command, which gives one equation per opcode and one for the illegal ones.  A
command's RSVD_MASK is itself a concatenation, so the test of R65 is one test per field. -/

namespace Sys2Proof

/-! ## A concatenation as a number -/

/-- The high part weighs `2 ^ n`, where `n` is the width of the low part. -/
theorem toNat_append_eq_sum {m n : Nat} (x : BitVec m) (y : BitVec n) :
    (x ++ y).toNat = x.toNat * 2 ^ n + y.toNat := by
  rw [BitVec.toNat_append, ← Nat.shiftLeft_add_eq_or_of_lt y.isLt, Nat.shiftLeft_eq]

theorem enc_toNat (op : BitVec 4) (p : BitVec 12) (b : Half) (a : Word) :
    (enc op p b a).toNat = op.toNat * 2 ^ 60 + p.toNat * 2 ^ 48 + b.toNat * 2 ^ 32 + a.toNat := by
  simp only [enc, toNat_append_eq_sum]
  ring

/-- P of a PACK or UNPACK without reserved bits (R61). -/
theorem geometry_toNat (w : BitVec 5) (m : BitVec 4) : ((0 : BitVec 3) ++ w ++ m).toNat = 16 * w.toNat + m.toNat := by
  simp only [toNat_append_eq_sum, BitVec.ofNat_eq_ofNat, BitVec.toNat_zero]
  ring

/-- P of a GETF or SETF without reserved bits (R62). -/
theorem fid_toNat (f : BitVec 4) : ((0 : BitVec 8) ++ f).toNat = f.toNat := by
  simp only [toNat_append_eq_sum, BitVec.ofNat_eq_ofNat, BitVec.toNat_zero]
  ring

/-! ## The fields of a command's own word -/

@[simp] theorem opField_encode (i : Instr) : opField (encode i) = i.opcode := opField_enc _ _ _ _

@[simp] theorem pField_encode (i : Instr) : pField (encode i) = i.pBits := pField_enc _ _ _ _

/-- Settles O2: the word is a concatenation, and so is P, and a concatenation is the weighted sum of its parts. -/
theorem encodingIsTheWeightedSumOfItsFields : Obligations.EncodingIsTheWeightedSumOfItsFields := by
  refine ⟨enc_toNat, fun c v m w => ?_, fun c v f => ?_⟩
  · rw [pField_encode, pField_encode]
    exact ⟨geometry_toNat w m, geometry_toNat w m⟩
  · rw [pField_encode, pField_encode]
    exact ⟨fid_toNat f, fid_toNat f⟩

/-! ## The decoder, one equation per opcode (R64) -/

section DecodeByOpcode

variable (p : BitVec 12) (b : Half) (a : Word)

@[simp] theorem decode_enc_cnt2c : decode (enc 1 p b a) = .ok (.cnt2c (aLo a) (aHi a) b p) := by
  simp [decode]

@[simp] theorem decode_enc_cnt2f : decode (enc 2 p b a) = .ok (.cnt2f (aLo a) (aHi a) b p) := by
  simp [decode]

@[simp] theorem decode_enc_c2cnt : decode (enc 3 p b a) = .ok (.c2cnt a b p) := by
  simp [decode]

@[simp] theorem decode_enc_pack :
    decode (enc 4 p b a) = .ok (.pack (aLo a) b (pLow p) (pWidth p) (aHi a) (pHi3 p)) := by
  simp [decode]

@[simp] theorem decode_enc_unpack :
    decode (enc 5 p b a) = .ok (.unpack (aLo a) (pLow p) (pWidth p) (aHi a) b (pHi3 p)) := by
  simp [decode]

@[simp] theorem decode_enc_getf : decode (enc 6 p b a) = .ok (.getf (aLo a) (pLow p) (aHi a) b (pHi8 p)) := by
  simp [decode]

@[simp] theorem decode_enc_setf : decode (enc 7 p b a) = .ok (.setf (aLo a) b (pLow p) (aHi a) (pHi8 p)) := by
  simp [decode]

@[simp] theorem decode_enc_lat : decode (enc 8 p b a) = .ok (.lat a b p) := by
  simp [decode]

end DecodeByOpcode

theorem decode_of_illegalOp {c : Cmd} (h : (opField c).toNat = 0 ∨ 8 < (opField c).toNat) :
    decode c = .error (.illegalOp (opField c)) := by
  unfold decode
  split
  case h_9 => rfl
  all_goals omega

end Sys2Proof

namespace Sys2Proof.Machine

theorem evalCmd_of_illegalOp (l : LatRom) {c : Cmd} (h : (opField c).toNat = 0 ∨ 8 < (opField c).toNat) :
    evalCmd l c = .fail .illegalOp := by
  rw [evalCmd, decode_of_illegalOp h]

/-- Settles O5: a legal OP by its equation of the decoder, an illegal one because the word is no command. -/
theorem opcodeAloneSelectsTheCommand : Obligations.OpcodeAloneSelectsTheCommand := by
  intro p b a
  refine ⟨⟨_, _, _, _, decode_enc_cnt2c p b a⟩, ⟨_, _, _, _, decode_enc_cnt2f p b a⟩,
    ⟨_, _, _, decode_enc_c2cnt p b a⟩, ⟨_, _, _, _, _, _, decode_enc_pack p b a⟩,
    ⟨_, _, _, _, _, _, decode_enc_unpack p b a⟩, ⟨_, _, _, _, _, decode_enc_getf p b a⟩,
    ⟨_, _, _, _, _, decode_enc_setf p b a⟩, ⟨_, _, _, decode_enc_lat p b a⟩, fun op s hop => ?_⟩
  have hill : (opField (enc op p b a)).toNat = 0 ∨ 8 < (opField (enc op p b a)).toNat := by
    rw [opField_enc]
    exact hop.imp_left (congrArg BitVec.toNat)
  rw [accept_eq_commit, evalCmd_of_illegalOp _ hill]
  rfl

/-! ## Reserved bits (R65)

The mask of each command's opcode, cut into the fields of the word: ones over each reserved part of a field, and zeros
over its operands. -/

/-- RSVD_MASK over P: all of it, the part above WID and MSB (R61), or the part above FID (R62). -/
def pMask : Instr → BitVec 12
  | .cnt2c .. | .cnt2f .. | .c2cnt .. | .lat .. => BitVec.allOnes 12
  | .pack .. | .unpack .. => BitVec.allOnes 3 ++ 0#5 ++ 0#4
  | .getf .. | .setf .. => BitVec.allOnes 8 ++ 0#4

/-- RSVD_MASK over B: all of it, or none where B is an operand. -/
def bMask : Instr → Half
  | .pack .. | .setf .. | .lat .. => 0#16
  | .cnt2c .. | .cnt2f .. | .c2cnt .. | .unpack .. | .getf .. => BitVec.allOnes 16

/-- RSVD_MASK over A: the upper half, or none where all of A is an operand. -/
def aMask : Instr → Word
  | .c2cnt .. | .lat .. => 0#32
  | .cnt2c .. | .cnt2f .. | .pack .. | .unpack .. | .getf .. | .setf .. => BitVec.allOnes 16 ++ 0#16

theorem rsvdMask_opcode (i : Instr) : rsvdMask i.opcode = enc 0 (pMask i) (bMask i) (aMask i) := by
  cases i <;> simp only [Instr.opcode, pMask, bMask, aMask] <;> decide

/-- A field whose mask keeps its high part is zero under the mask exactly when that part is zero. -/
theorem append_and_high_eq_zero {m n : Nat} (h : BitVec m) (l : BitVec n) :
    (h ++ l) &&& (BitVec.allOnes m ++ 0#n) = 0#(m + n) ↔ h = 0#m := by
  refine append_and_eq_zero.trans ?_
  exact (and_iff_left BitVec.and_zero).trans (and_ones_eq_zero rfl)

/-- P of PACK and UNPACK is zero under its mask exactly when P[11:9] is zero. -/
theorem geometry_and_mask_eq_zero (h : BitVec 3) (w : BitVec 5) (m : BitVec 4) :
    (h ++ w ++ m) &&& (BitVec.allOnes 3 ++ 0#5 ++ 0#4) = 0#12 ↔ h = 0#3 := by
  refine append_and_eq_zero.trans ?_
  exact (and_iff_left BitVec.and_zero).trans (append_and_high_eq_zero h w)

/-- The RSVD_MASK test on the word finds no bit exactly when the command's reserved fields are all zero. -/
theorem reservedSet_eq_false_iff (i : Instr) : reservedSet i = false ↔ i.wellFormed = true := by
  rw [reservedSet_eq_false_iff_of_mask (rsvdMask_opcode i)]
  cases i <;> simp only [Instr.pBits, Instr.bBits, Instr.aBits, pMask, bMask, aMask, Instr.wellFormed,
    Bool.and_eq_true, beq_iff_eq, BitVec.ofNat_eq_ofNat, BitVec.and_allOnes, BitVec.and_zero, true_and, and_true]
  case cnt2c | cnt2f =>
    rw [append_and_high_eq_zero]
    tauto
  case c2cnt => exact and_comm
  case pack | unpack =>
    rw [geometry_and_mask_eq_zero, append_and_high_eq_zero]
    tauto
  case getf | setf =>
    rw [append_and_high_eq_zero, append_and_high_eq_zero]
    tauto

theorem reservedSet_eq_true_iff (i : Instr) : reservedSet i = true ↔ i.wellFormed = false := by
  rw [← Bool.not_eq_false, reservedSet_eq_false_iff, Bool.not_eq_true]

theorem reservedSet_eq_true_iff_mask (i : Instr) :
    reservedSet i = true ↔ encode i &&& rsvdMask (opField (encode i)) ≠ 0 := by
  rw [opField_encode, reservedSet, bne_iff_ne]

/-- Every command's first check (R65, R99). -/
theorem evalInstr_of_reserved (l : LatRom) {i : Instr} (h : reservedSet i = true) : evalInstr l i = .fail .rsvd :=
  unlessReserved_of_set h _

/-- Settles O6: cut into fields, the mask's test is that of well-formedness, and it is the first check of every command. -/
theorem reservedBitsFailWithRsvd : Obligations.ReservedBitsFailWithRsvd := by
  refine ⟨⟨rfl, rfl, rfl, rfl, rfl, rfl, rfl, rfl⟩, fun i s => ?_⟩
  rw [← reservedSet_eq_true_iff_mask]
  exact ⟨reservedSet_eq_true_iff i, fun h => failsWith_of_eval (evalInstr_of_reserved _ h)⟩

end Sys2Proof.Machine

/-! # The temperature converter: when a command succeeds, as arithmetic of its operand and its result

For a command without reserved bits, `Succeeds` is an arithmetic relation between the two words read as integers: the
result of CNT2C is 512 times the count, that of CNT2F is within two fifths of the exact value, and that of C2CNT is the
nearest count.  R72 to R74 and the laws of R76 are read off these three equivalences. -/

namespace Sys2Proof.Machine

/-! ## A command's outcome, and a word by its value -/

theorem succeeds_iff_eval {i : Instr} {s : State} {v : Word} :
    Succeeds i s v ↔ evalInstr s.params.latRom i = .ok v :=
  ⟨eval_of_succeeds, succeeds_of_eval⟩

/-- Code 2, in every state (R65). -/
theorem failsWith_rsvd {i : Instr} (h : ¬i.wellFormed = true) (s : State) : FailsWith i s 2 :=
  failsWith_of_eval (evalInstr_of_reserved _ ((reservedSet_eq_true_iff i).2 (Bool.eq_false_of_not_eq_true h)))

theorem word32_eq_iff {x : Int} {v : Word} (h1 : -2147483648 ≤ x) (h2 : x ≤ 2147483647) :
    word32 x = v ↔ v.toInt = x := by
  rw [← BitVec.toInt_inj, toInt_word32 h1 h2, eq_comm]

/-! ## CNT2C (R73) -/

theorem wellFormed_cnt2c_iff (count aHi b : Half) (p : BitVec 12) :
    (Instr.cnt2c count aHi b p).wellFormed = true ↔ aHi = 0 ∧ b = 0 ∧ p = 0 := by
  simp [Instr.wellFormed, and_assoc]

theorem evalInstr_cnt2c (l : LatRom) (n : Half) : evalInstr l (.cnt2c n 0 0 0) = .ok (word32 (512 * n.toInt)) :=
  unlessReserved_of_clear ((reservedSet_eq_false_iff _).2 rfl) _

theorem succeeds_cnt2c_iff {n : Half} {s : State} {v : Word} :
    Succeeds (.cnt2c n 0 0 0) s v ↔ v.toInt = 512 * n.toInt := by
  have hn := count_range n
  rw [succeeds_iff_eval, evalInstr_cnt2c, Result.ok.injEq]
  exact word32_eq_iff (by omega) (by omega)

theorem cnt2c_completes (n : Half) (s : State) : ∃ v, Succeeds (.cnt2c n 0 0 0) s v :=
  ⟨_, succeeds_of_eval (evalInstr_cnt2c _ n)⟩

/-- Settles O13: the word is cut into its fields, a command without reserved bits returns 512 times its count, and any
other is not well formed. -/
theorem countToCelsiusIsExact : Obligations.CountToCelsiusIsExact := by
  intro count aHi b p s
  refine ⟨?_, ?_, fun h => failsWith_rsvd (mt (wellFormed_cnt2c_iff count aHi b p).1 h) s⟩
  · rw [decode_enc_cnt2c, aLo_append, aHi_append]
  · rintro ⟨rfl, rfl, rfl⟩
    obtain ⟨v, hv⟩ := cnt2c_completes count s
    exact ⟨v, hv, succeeds_cnt2c_iff.1 hv⟩

/-! ## CNT2F (R74) -/

theorem wellFormed_cnt2f_iff (count aHi b : Half) (p : BitVec 12) :
    (Instr.cnt2f count aHi b p).wellFormed = true ↔ aHi = 0 ∧ b = 0 ∧ p = 0 := by
  simp [Instr.wellFormed, and_assoc]

theorem evalInstr_cnt2f (l : LatRom) (n : Half) :
    evalInstr l (.cnt2f n 0 0 0) = .ok (word32 (fdiv (4608 * n.toInt + 2) 5 + 2097152)) :=
  unlessReserved_of_clear ((reservedSet_eq_false_iff _).2 rfl) _

/-- Adding 2 before the floor division by 5 rounds to nearest, and an integer within 2 fifths is the nearest. -/
theorem succeeds_cnt2f_iff {n : Half} {s : State} {v : Word} :
    Succeeds (.cnt2f n 0 0 0) s v ↔
      -2 ≤ 5 * (v.toInt - 2097152) - 4608 * n.toInt ∧ 5 * (v.toInt - 2097152) - 4608 * n.toInt ≤ 2 := by
  have hn := count_range n
  have hq := fdiv_spec (4608 * n.toInt + 2) (b := 5) (by decide)
  rw [succeeds_iff_eval, evalInstr_cnt2f, Result.ok.injEq, word32_eq_iff (by omega) (by omega)]
  omega

theorem cnt2f_completes (n : Half) (s : State) : ∃ v, Succeeds (.cnt2f n 0 0 0) s v :=
  ⟨_, succeeds_of_eval (evalInstr_cnt2f _ n)⟩

/-- Settles O14: the word is cut into its fields, a command without reserved bits returns the nearest value, and any
other is not well formed. -/
theorem countToFahrenheitIsNearest : Obligations.CountToFahrenheitIsNearest := by
  intro count aHi b p s
  refine ⟨?_, ?_, fun h => failsWith_rsvd (mt (wellFormed_cnt2f_iff count aHi b p).1 h) s⟩
  · rw [decode_enc_cnt2f, aLo_append, aHi_append]
  · rintro ⟨rfl, rfl, rfl⟩
    obtain ⟨v, hv⟩ := cnt2f_completes count s
    exact ⟨v, hv, succeeds_cnt2f_iff.1 hv⟩

/-! ## C2CNT (R72) -/

theorem wellFormed_c2cnt_iff (cin : Word) (b : Half) (p : BitVec 12) :
    (Instr.c2cnt cin b p).wellFormed = true ↔ b = 0 ∧ p = 0 := by
  simp [Instr.wellFormed]

theorem evalInstr_c2cnt (l : LatRom) (cin : Word) : evalInstr l (.c2cnt cin 0 0) = c2cntResult cin :=
  unlessReserved_of_clear ((reservedSet_eq_false_iff _).2 rfl) _

/-- `q` is a count, it is nearest to `x / 512`, and it is even when `x / 512` lies halfway between two integers. -/
abbrev IsNearestCount (x q : Int) : Prop :=
  -32768 ≤ q ∧ q ≤ 32767 ∧ -256 ≤ 512 * q - x ∧ 512 * q - x ≤ 256 ∧
    (512 * q - x = 256 ∨ 512 * q - x = -256 → q % 2 = 0)

theorem isNearestCount_iff_rhe {x q : Int} : IsNearestCount x q ↔ (-32768 ≤ q ∧ q ≤ 32767) ∧ rhe x 9 = q := by
  constructor
  · rintro ⟨hlo, hhi, h1, h2, heven⟩
    exact ⟨⟨hlo, hhi⟩, rhe_nine_unique h1 h2 heven⟩
  · rintro ⟨⟨hlo, hhi⟩, rfl⟩
    obtain ⟨⟨h1, h2⟩, heven⟩ := rhe_nine_spec x
    exact ⟨hlo, hhi, h1, h2, heven⟩

/-- The rounded value is a count exactly for the inputs R72 accepts: the lower end is a tie that goes to the even
-32768, and one unit past the upper end is a tie that goes to the even 32768. -/
theorem rhe_nine_range_iff (x : Int) :
    (-32768 ≤ rhe x 9 ∧ rhe x 9 ≤ 32767) ↔ -16777472 ≤ x ∧ x ≤ 16776959 := by
  have h := rhe_nine_spec x
  omega

theorem c2cntResult_eq_ok_iff {cin v : Word} : c2cntResult cin = .ok v ↔ IsNearestCount cin.toInt v.toInt := by
  rw [isNearestCount_iff_rhe]
  by_cases hr : -32768 ≤ rhe cin.toInt 9 ∧ rhe cin.toInt 9 ≤ 32767
  · rw [c2cntResult_ok hr.1 hr.2, Result.ok.injEq, word32_eq_iff (by omega) (by omega)]
    omega
  · rw [c2cntResult_range (by omega)]
    simp only [reduceCtorEq, false_iff]
    omega

theorem succeeds_c2cnt_iff {cin : Word} {s : State} {v : Word} :
    Succeeds (.c2cnt cin 0 0) s v ↔ IsNearestCount cin.toInt v.toInt := by
  rw [succeeds_iff_eval, evalInstr_c2cnt, c2cntResult_eq_ok_iff]

theorem c2cnt_completes {cin : Word} (h1 : -16777472 ≤ cin.toInt) (h2 : cin.toInt ≤ 16776959) (s : State) :
    ∃ v, Succeeds (.c2cnt cin 0 0) s v := by
  obtain ⟨hlo, hhi⟩ := (rhe_nine_range_iff cin.toInt).2 ⟨h1, h2⟩
  exact ⟨_, succeeds_of_eval ((evalInstr_c2cnt _ cin).trans (c2cntResult_ok hlo hhi))⟩

theorem c2cnt_failsWith_range {cin : Word} (h : cin.toInt < -16777472 ∨ 16776959 < cin.toInt) (s : State) :
    FailsWith (.c2cnt cin 0 0) s 3 := by
  have hout := rhe_nine_range_iff cin.toInt
  exact failsWith_of_eval ((evalInstr_c2cnt _ cin).trans (c2cntResult_range (by omega)))

/-- Settles O15: without reserved bits the command completes or fails by its input's range and a result is the nearest
count; any other command is not well formed. -/
theorem celsiusToCountRoundsToNearestEven : Obligations.CelsiusToCountRoundsToNearestEven := by
  intro cin b p s
  refine ⟨decode_enc_c2cnt p b cin, ?_, fun h => failsWith_rsvd (mt (wellFormed_c2cnt_iff cin b p).1 h) s⟩
  rintro ⟨rfl, rfl⟩
  refine ⟨fun ⟨h1, h2⟩ => ?_, fun h => c2cnt_failsWith_range h s⟩
  obtain ⟨v, hv⟩ := c2cnt_completes h1 h2 s
  exact ⟨v, hv, succeeds_c2cnt_iff.1 hv⟩

/-! ## The laws of the converter (R76)

Each law is arithmetic on the integers that the three equivalences speak of. -/

/-- Round trip: CNT2C's result lies in C2CNT's accepted range and is no tie. -/
theorem c2cnt_of_cnt2c {n : Half} {s : State} {v : Word} (hv : Succeeds (.cnt2c n 0 0 0) s v) (s' : State) :
    ∃ w, Succeeds (.c2cnt v 0 0) s' w ∧ w.toInt = n.toInt := by
  have hn := count_range n
  have hvn := succeeds_cnt2c_iff.1 hv
  obtain ⟨w, hw⟩ := c2cnt_completes (cin := v) (by omega) (by omega) s'
  obtain ⟨-, -, h1, h2, -⟩ := succeeds_c2cnt_iff.1 hw
  exact ⟨w, hw, by omega⟩

/-- Two results in the wrong order would be neighbours of one halfway input, and of two neighbours only one is even. -/
theorem isNearestCount_mono {x x' q q' : Int} (h : x ≤ x') (hq : IsNearestCount x q) (hq' : IsNearestCount x' q') :
    q ≤ q' := by
  obtain ⟨-, -, -, hhi, heven⟩ := hq
  obtain ⟨-, -, hlo, -, heven'⟩ := hq'
  omega

/-- A count is worth 921.6 units of 2^-16 degree Fahrenheit, and each end is off by at most 0.4. -/
theorem cnt2f_strictMono {n n' : Half} {v v' : Word} {s : State} (h : n.toInt < n'.toInt)
    (hv : Succeeds (.cnt2f n 0 0 0) s v) (hv' : Succeeds (.cnt2f n' 0 0 0) s v') : v.toInt < v'.toInt := by
  have hlo := (succeeds_cnt2f_iff.1 hv).2
  have hhi := (succeeds_cnt2f_iff.1 hv').1
  omega

theorem cnt2f_step {n n' : Half} {v v' : Word} {s : State} (h : n'.toInt = n.toInt + 1)
    (hv : Succeeds (.cnt2f n 0 0 0) s v) (hv' : Succeeds (.cnt2f n' 0 0 0) s v') :
    v'.toInt - v.toInt = 921 ∨ v'.toInt - v.toInt = 922 := by
  have hb := succeeds_cnt2f_iff.1 hv
  have hb' := succeeds_cnt2f_iff.1 hv'
  omega

theorem cnt2f_error_le {n : Half} {v : Word} {s : State} (hv : Succeeds (.cnt2f n 0 0 0) s v) :
    |(v.toInt : ℚ) / 65536 - (9 * n.toInt / 640 + 32)| ≤ 4 / 10 / 65536 := by
  obtain ⟨h1, h2⟩ := succeeds_cnt2f_iff.1 hv
  have q1 : (-2 : ℚ) ≤ 5 * (v.toInt - 2097152) - 4608 * n.toInt := by exact_mod_cast h1
  have q2 : 5 * ((v.toInt : ℚ) - 2097152) - 4608 * n.toInt ≤ 2 := by exact_mod_cast h2
  rw [abs_le]
  constructor <;> linarith

theorem c2cnt_error_le {c v : Word} {s : State} (hv : Succeeds (.c2cnt c 0 0) s v) :
    |(v.toInt : ℚ) - c.toInt / 512| ≤ 1 / 2 := by
  obtain ⟨-, -, h1, h2, -⟩ := succeeds_c2cnt_iff.1 hv
  have q1 : (-256 : ℚ) ≤ 512 * v.toInt - c.toInt := by exact_mod_cast h1
  have q2 : 512 * (v.toInt : ℚ) - c.toInt ≤ 256 := by exact_mod_cast h2
  rw [abs_le]
  constructor <;> linarith

/-- Settles O16: the round trip, the monotonicity and the error bounds, each by its own lemma. -/
theorem converterLaws : Obligations.ConverterLaws := by
  refine ⟨fun n s => ?roundTrip, ⟨?c2cntMono, ?cnt2cMono, ?cnt2fMono, ?cnt2fStep⟩, ?cnt2fError, ?c2cntError⟩
  case roundTrip =>
    obtain ⟨v, hv⟩ := cnt2c_completes n s
    exact ⟨v, hv, c2cnt_of_cnt2c hv⟩
  case c2cntMono =>
    intro c c' v v' s h hv hv'
    exact isNearestCount_mono h (succeeds_c2cnt_iff.1 hv) (succeeds_c2cnt_iff.1 hv')
  case cnt2cMono =>
    intro n n' v v' s h hv hv'
    rw [succeeds_cnt2c_iff.1 hv, succeeds_cnt2c_iff.1 hv']
    omega
  case cnt2fMono => exact fun n n' v v' s h => cnt2f_strictMono h
  case cnt2fStep => exact fun n n' v v' s h => cnt2f_step h
  case cnt2fError => exact fun n v s => cnt2f_error_le
  case c2cntError => exact fun c v s => c2cnt_error_le

end Sys2Proof.Machine

/-! # The bit-field commands: one rule per outcome, and the laws of reading and replacing a field

For a command without reserved bits, its operands choose the outcome: the field read, the container with the field
replaced, or one error.  R79, R80, R83 and R84 are these rules with the result bit by bit, and the laws of R85 are laws
of `extractField` and `insertField` carried over to the words the commands return. -/

namespace Sys2Proof.Machine

/-! ## Reserved bits -/

theorem wellFormed_pack_iff (c v : Half) (m : BitVec 4) (w : BitVec 5) (aHi : Half) (pHi : BitVec 3) :
    (Instr.pack c v m w aHi pHi).wellFormed = true ↔ aHi = 0 ∧ pHi = 0 := by
  simp [Instr.wellFormed]

theorem wellFormed_unpack_iff (c : Half) (m : BitVec 4) (w : BitVec 5) (aHi b : Half) (pHi : BitVec 3) :
    (Instr.unpack c m w aHi b pHi).wellFormed = true ↔ aHi = 0 ∧ b = 0 ∧ pHi = 0 := by
  simp [Instr.wellFormed, and_assoc]

theorem wellFormed_getf_iff (c : Half) (f : BitVec 4) (aHi b : Half) (pHi : BitVec 8) :
    (Instr.getf c f aHi b pHi).wellFormed = true ↔ aHi = 0 ∧ b = 0 ∧ pHi = 0 := by
  simp [Instr.wellFormed, and_assoc]

theorem wellFormed_setf_iff (c v : Half) (f : BitVec 4) (aHi : Half) (pHi : BitVec 8) :
    (Instr.setf c v f aHi pHi).wellFormed = true ↔ aHi = 0 ∧ pHi = 0 := by
  simp [Instr.wellFormed]

/-! ## What a command without reserved bits returns -/

theorem evalInstr_pack (l : LatRom) (c v : Half) (m : BitVec 4) (w : BitVec 5) :
    evalInstr l (.pack c v m w 0 0) = packResult c v m w :=
  unlessReserved_of_clear ((reservedSet_eq_false_iff _).2 rfl) _

theorem evalInstr_unpack (l : LatRom) (c : Half) (m : BitVec 4) (w : BitVec 5) :
    evalInstr l (.unpack c m w 0 0 0) = unpackResult c m w :=
  unlessReserved_of_clear ((reservedSet_eq_false_iff _).2 rfl) _

theorem evalInstr_getf (l : LatRom) (c : Half) (f : BitVec 4) : evalInstr l (.getf c f 0 0 0) = getfResult c f :=
  unlessReserved_of_clear ((reservedSet_eq_false_iff _).2 rfl) _

theorem evalInstr_setf (l : LatRom) (c v : Half) (f : BitVec 4) : evalInstr l (.setf c v f 0 0) = setfResult c v f :=
  unlessReserved_of_clear ((reservedSet_eq_false_iff _).2 rfl) _

/-! ## PACK and UNPACK (R79, R80) -/

section Geometry

variable {c v : Half} {m : BitVec 4} {w : BitVec 5} (s : State)

theorem pack_succeeds (h : 1 ≤ w.toNat ∧ w.toNat ≤ m.toNat + 1) (hv : v.toNat < 2 ^ w.toNat) :
    Succeeds (.pack c v m w 0 0) s (zext32 (insertField c m.toNat w.toNat v.toNat)) :=
  succeeds_of_eval ((evalInstr_pack _ c v m w).trans ((packResult_legal c v h).trans (insertChecked_ok c _ hv)))

theorem pack_failsWith_valueWide (h : 1 ≤ w.toNat ∧ w.toNat ≤ m.toNat + 1) (hv : 2 ^ w.toNat ≤ v.toNat) :
    FailsWith (.pack c v m w 0 0) s 5 :=
  failsWith_of_eval ((evalInstr_pack _ c v m w).trans ((packResult_legal c v h).trans (insertChecked_wide c _ hv)))

theorem pack_failsWith_geometry (h : w.toNat = 0 ∨ m.toNat + 1 < w.toNat) : FailsWith (.pack c v m w 0 0) s 4 :=
  failsWith_of_eval ((evalInstr_pack _ c v m w).trans (packResult_geometry c v h))

theorem unpack_succeeds (h : 1 ≤ w.toNat ∧ w.toNat ≤ m.toNat + 1) :
    Succeeds (.unpack c m w 0 0 0) s (zext32 (extractField c m.toNat w.toNat)) :=
  succeeds_of_eval ((evalInstr_unpack _ c m w).trans (unpackResult_legal c h))

theorem unpack_failsWith_geometry (h : w.toNat = 0 ∨ m.toNat + 1 < w.toNat) : FailsWith (.unpack c m w 0 0 0) s 4 :=
  failsWith_of_eval ((evalInstr_unpack _ c m w).trans (unpackResult_geometry c h))

end Geometry

theorem toNat_msb_le (m : BitVec 4) : m.toNat ≤ 15 := Nat.le_of_lt_succ m.isLt

/-- Settles O17: each outcome has its rule, and the bits of the result are those of the replaced field. -/
theorem packReplacesExactlyTheField : Obligations.PackReplacesExactlyTheField := by
  intro c v m w aHi pHi s
  refine ⟨?decodes, ?outcomes, fun h => failsWith_rsvd (mt (wellFormed_pack_iff c v m w aHi pHi).1 h) s⟩
  case decodes =>
    rw [decode_enc_pack, aLo_append, aHi_append, pLow_geometry, pWidth_geometry, pHi3_geometry]
  case outcomes =>
    rintro ⟨rfl, rfl⟩
    refine ⟨fun hg => ⟨fun hv => ⟨_, pack_succeeds s hg hv, fun k _ => ?_⟩, pack_failsWith_valueWide s hg⟩,
      pack_failsWith_geometry s⟩
    rw [getLsbD_zext32, getLsbD_insertField hg.2 (toNat_msb_le m) hv, BitVec.testBit_toNat]

/-- Settles O18: each outcome has its rule, and the bits of the result are those of the field. -/
theorem unpackReadsExactlyTheField : Obligations.UnpackReadsExactlyTheField := by
  intro c m w aHi b pHi s
  refine ⟨?decodes, ?outcomes, fun h => failsWith_rsvd (mt (wellFormed_unpack_iff c m w aHi b pHi).1 h) s⟩
  case decodes =>
    rw [decode_enc_unpack, aLo_append, aHi_append, pLow_geometry, pWidth_geometry, pHi3_geometry]
  case outcomes =>
    rintro ⟨rfl, rfl, rfl⟩
    refine ⟨fun hg => ⟨_, unpack_succeeds s hg, fun k _ => ?_⟩, unpack_failsWith_geometry s⟩
    rw [getLsbD_zext32, getLsbD_extractField hg.2 (toNat_msb_le m)]

/-! ## The field table (R81) -/

/-- A row's numbers fit the operands MSB and WID, and are a legal geometry of PACK and UNPACK. -/
theorem fieldTable_geometry {fid : Nat} {row : Field} (h : fieldTable fid = some row) :
    (BitVec.ofNat 4 row.msb).toNat = row.msb ∧ (BitVec.ofNat 5 row.width).toNat = row.width ∧
      1 ≤ (BitVec.ofNat 5 row.width).toNat ∧
        (BitVec.ofNat 5 row.width).toNat ≤ (BitVec.ofNat 4 row.msb).toNat + 1 := by
  obtain ⟨hpos, hwidth, hmsb⟩ := fieldTable_legal h
  have hm : (BitVec.ofNat 4 row.msb).toNat = row.msb := Nat.mod_eq_of_lt (by omega)
  have hw : (BitVec.ofNat 5 row.width).toNat = row.width := Nat.mod_eq_of_lt (by omega)
  rw [hm, hw]
  exact ⟨rfl, rfl, hpos, hwidth⟩

/-- Settles O21: both lists are closed, so the sixteen ids are looked up. -/
theorem fieldTableIsAsPrinted : Obligations.FieldTableIsAsPrinted := by
  unfold Obligations.FieldTableIsAsPrinted
  decide

theorem exists_fieldTable_eq_some {fid : Nat} (h : fid ≤ 11) : ∃ row, fieldTable fid = some row :=
  Option.isSome_iff_exists.1 ((fieldTable_isSome fid).trans (decide_eq_true h))

theorem fieldTable_eq_none {fid : Nat} (h : 11 < fid) : fieldTable fid = none :=
  Option.not_isSome_iff_eq_none.1 (by rw [fieldTable_isSome, decide_eq_true_eq]; omega)

/-- The writable fields are MOD to SOFT_RESET. -/
theorem writable_iff {fid : Nat} {row : Field} (h : fieldTable fid = some row) :
    row.writable = true ↔ 4 ≤ fid ∧ fid ≤ 10 := by
  unfold fieldTable at h
  split at h <;> cases h <;> decide

/-! ## GETF and SETF (R83, R84) -/

section Table

variable {c v : Half} {f : BitVec 4} {row : Field} (s : State)

theorem getf_succeeds (h : fieldTable f.toNat = some row) :
    Succeeds (.getf c f 0 0 0) s (zext32 (extractField c row.msb row.width)) :=
  succeeds_of_eval ((evalInstr_getf _ c f).trans (getfResult_some c h))

theorem getf_failsWith_badField (h : 11 < f.toNat) : FailsWith (.getf c f 0 0 0) s 6 :=
  failsWith_of_eval ((evalInstr_getf _ c f).trans (getfResult_none c (fieldTable_eq_none h)))

theorem setf_succeeds (h : fieldTable f.toNat = some row) (hw : row.writable = true) (hv : v.toNat < 2 ^ row.width) :
    Succeeds (.setf c v f 0 0) s (zext32 (insertField c row.msb row.width v.toNat)) :=
  succeeds_of_eval ((evalInstr_setf _ c v f).trans ((setfResult_writable c v h hw).trans (insertChecked_ok c _ hv)))

theorem setf_failsWith_valueWide (h : fieldTable f.toNat = some row) (hw : row.writable = true)
    (hv : 2 ^ row.width ≤ v.toNat) : FailsWith (.setf c v f 0 0) s 5 :=
  failsWith_of_eval ((evalInstr_setf _ c v f).trans ((setfResult_writable c v h hw).trans (insertChecked_wide c _ hv)))

theorem setf_failsWith_readOnly (h : f.toNat ≤ 3 ∨ f.toNat = 11) : FailsWith (.setf c v f 0 0) s 7 := by
  obtain ⟨row, hrow⟩ := exists_fieldTable_eq_some (fid := f.toNat) (by omega)
  have hro : row.writable = false := by
    rw [← Bool.not_eq_true, writable_iff hrow]
    omega
  exact failsWith_of_eval ((evalInstr_setf _ c v f).trans (setfResult_readOnly c v hrow hro))

theorem setf_failsWith_badField (h : 11 < f.toNat) : FailsWith (.setf c v f 0 0) s 6 :=
  failsWith_of_eval ((evalInstr_setf _ c v f).trans (setfResult_none c v (fieldTable_eq_none h)))

end Table

/-- Settles O19: each outcome has its rule, and the field read is the member of the parallel decoder. -/
theorem getfReadsTheNamedConfigField : Obligations.GetfReadsTheNamedConfigField := by
  intro c f aHi b pHi s
  refine ⟨?decodes, ?outcomes, fun h => failsWith_rsvd (mt (wellFormed_getf_iff c f aHi b pHi).1 h) s⟩
  case decodes =>
    rw [decode_enc_getf, aLo_append, aHi_append, pLow_fid, pHi8_fid]
  case outcomes =>
    rintro ⟨rfl, rfl, rfl⟩
    refine ⟨fun hf => ?_, getf_failsWith_badField s⟩
    obtain ⟨row, hrow⟩ := exists_fieldTable_eq_some hf
    obtain ⟨-, hwidth, hmsb⟩ := fieldTable_legal hrow
    refine ⟨row, _, hrow, getf_succeeds s hrow, fun k _ => ?_, ?_⟩
    · rw [getLsbD_zext32, getLsbD_extractField hwidth hmsb]
    · rw [zext32_toNat, member_eq_extractField hrow]

/-- Settles O20: each outcome has its rule, and the replaced field reads as the value while every other bit is kept. -/
theorem setfReplacesTheNamedConfigField : Obligations.SetfReplacesTheNamedConfigField := by
  intro c v f aHi pHi s
  refine ⟨?decodes, ?outcomes, fun h => failsWith_rsvd (mt (wellFormed_setf_iff c v f aHi pHi).1 h) s⟩
  case decodes =>
    rw [decode_enc_setf, aLo_append, aHi_append, pLow_fid, pHi8_fid]
  case outcomes =>
    rintro ⟨rfl, rfl⟩
    refine ⟨fun hf => ?_, setf_failsWith_readOnly s, setf_failsWith_badField s⟩
    obtain ⟨row, hrow⟩ := exists_fieldTable_eq_some (hf.2.trans (by decide))
    have hw := (writable_iff hrow).2 hf
    obtain ⟨-, hwidth, hmsb⟩ := fieldTable_legal hrow
    refine ⟨row, hrow, fun hv => ⟨_, setf_succeeds s hrow hw hv, ?_, fun k _ hk => ?_⟩,
      setf_failsWith_valueWide s hrow hw⟩
    · rw [aLo_zext32, member_insertField hrow hv]
    · rw [getLsbD_zext32, getLsbD_insertField hwidth hmsb hv, if_neg hk]

/-! ## The laws of the bit-field commands (R85) -/

/-- Outside the field the container's bits are kept. -/
theorem insertField_and_not_fmask {msb w v : Nat} (hw : w ≤ msb + 1) (hm : msb ≤ 15) (hv : v < 2 ^ w) (c : Half) :
    insertField c msb w v &&& ~~~fmask msb w = c &&& ~~~fmask msb w := by
  apply BitVec.eq_of_getLsbD_eq
  intro k _
  rw [BitVec.getLsbD_and, BitVec.getLsbD_and, BitVec.getLsbD_not, getLsbD_fmask hw hm, getLsbD_insertField hw hm hv]
  by_cases hk : msb + 1 - w ≤ k ∧ k ≤ msb
  · simp [hk]
  · rw [if_neg hk]

/-- Inside the field the bits are the shifted value's. -/
theorem insertField_and_fmask (c : Half) (msb w v : Nat) :
    insertField c msb w v &&& fmask msb w = BitVec.ofNat 16 (v * 2 ^ (msb + 1 - w)) &&& fmask msb w := by
  have hcleared : c &&& ~~~fmask msb w &&& fmask msb w = 0#16 := by
    rw [BitVec.and_assoc, BitVec.and_comm (~~~_), BitVec.and_not_self]
    exact BitVec.and_zero
  rw [insertField, BitVec.and_or_distrib_right, hcleared, BitVec.zero_or]

theorem xor_and_distrib_right {n : Nat} (x y z : BitVec n) : (x ^^^ y) &&& z = (x &&& z) ^^^ (y &&& z) := by
  apply BitVec.eq_of_getLsbD_eq
  intro k _
  simp only [BitVec.getLsbD_and, BitVec.getLsbD_xor, Bool.and_xor_distrib_right]

/-- Replacing two fields without a common bit, in either order. -/
theorem insertField_comm {msb w v msb' w' v' : Nat} (hw : w ≤ msb + 1) (hm : msb ≤ 15) (hv : v < 2 ^ w)
    (hw' : w' ≤ msb' + 1) (hm' : msb' ≤ 15) (hv' : v' < 2 ^ w') (hdis : fmask msb w &&& fmask msb' w' = 0) (c : Half) :
    insertField (insertField c msb w v) msb' w' v' = insertField (insertField c msb' w' v') msb w v := by
  apply BitVec.eq_of_getLsbD_eq
  intro k _
  have hone : ¬((msb + 1 - w ≤ k ∧ k ≤ msb) ∧ msb' + 1 - w' ≤ k ∧ k ≤ msb') := by
    have hbit := congrArg (·.getLsbD k) hdis
    simpa [getLsbD_fmask hw hm, getLsbD_fmask hw' hm'] using hbit
  simp only [getLsbD_insertField hw hm hv, getLsbD_insertField hw' hm' hv']
  by_cases hk : msb + 1 - w ≤ k ∧ k ≤ msb
  · rw [if_pos hk, if_neg fun hk' => hone ⟨hk, hk'⟩, if_pos hk]
  · rw [if_neg hk, if_neg hk]

theorem exec_getf_eq_exec_unpack {f : BitVec 4} {row : Field} (h : fieldTable f.toNat = some row) (c : Half)
    (s : State) :
    exec (.getf c f 0 0 0) s = exec (.unpack c (BitVec.ofNat 4 row.msb) (BitVec.ofNat 5 row.width) 0 0 0) s := by
  obtain ⟨hmsb, hwidth, hlegal⟩ := fieldTable_geometry h
  rw [exec_eq_commit, exec_eq_commit, evalInstr_getf, evalInstr_unpack, getfResult_some c h,
    unpackResult_legal c hlegal, hmsb, hwidth]

theorem exec_setf_eq_exec_pack {f : BitVec 4} {row : Field} (h : fieldTable f.toNat = some row)
    (hw : row.writable = true) (c v : Half) (s : State) :
    exec (.setf c v f 0 0) s = exec (.pack c v (BitVec.ofNat 4 row.msb) (BitVec.ofNat 5 row.width) 0 0) s := by
  obtain ⟨hmsb, hwidth, hlegal⟩ := fieldTable_geometry h
  rw [exec_eq_commit, exec_eq_commit, evalInstr_setf, evalInstr_pack, setfResult_writable c v h hw,
    packResult_legal c v hlegal, hmsb, hwidth]

/-- UNPACK of a container whose field is `v` (R85, the first law). -/
theorem unpack_insertField_succeeds {c v : Half} {m : BitVec 4} {w : BitVec 5} (s : State)
    (h : 1 ≤ w.toNat ∧ w.toNat ≤ m.toNat + 1) (hv : v.toNat < 2 ^ w.toNat) :
    Succeeds (.unpack (insertField c m.toNat w.toNat v.toNat) m w 0 0 0) s (zext32 v) := by
  have hread := unpack_succeeds (c := insertField c m.toNat w.toNat v.toNat) s h
  rwa [extractField_insertField h.2 (toNat_msb_le m) hv, BitVec.ofNat_toNat, BitVec.setWidth_eq] at hread

/-- PACK of the value the field already holds (R85, the third law). -/
theorem pack_extractField_succeeds {c : Half} {m : BitVec 4} {w : BitVec 5} (s : State)
    (h : 1 ≤ w.toNat ∧ w.toNat ≤ m.toNat + 1) :
    Succeeds (.pack c (extractField c m.toNat w.toNat) m w 0 0) s (zext32 c) := by
  have hwrite := pack_succeeds (c := c) s h (extractField_lt c h.2 (toNat_msb_le m))
  rwa [insertField_extractField c h.2 (toNat_msb_le m)] at hwrite

/-- Settles O22: each law is the law of reading and replacing a field, between the words the commands return. -/
theorem bitFieldLaws : Obligations.BitFieldLaws := by
  refine ⟨?unpackOfPack, ?packOfUnpack, ?table, ?setfComm⟩
  case unpackOfPack =>
    intro c v m w s h1 hw hv
    refine ⟨_, pack_succeeds s ⟨h1, hw⟩ hv, fun s' => ?_, ?_, ?_⟩ <;> rw [aLo_zext32]
    · exact unpack_insertField_succeeds s' ⟨h1, hw⟩ hv
    · rw [xor_and_distrib_right, insertField_and_not_fmask hw (toNat_msb_le m) hv]
      exact BitVec.xor_self
    · rw [xor_and_distrib_right, insertField_and_fmask, ← xor_and_distrib_right]
  case packOfUnpack =>
    intro c m w s h1 hw
    refine ⟨_, unpack_succeeds s ⟨h1, hw⟩, fun s' => ?_⟩
    rw [aLo_zext32]
    exact pack_extractField_succeeds s' ⟨h1, hw⟩
  case table =>
    exact fun c v f row s hrow => ⟨exec_getf_eq_exec_unpack hrow c s, fun hw => exec_setf_eq_exec_pack hrow hw c v s⟩
  case setfComm =>
    intro c v v' f f' row row' s hrow hrow' hw hw' hdis hv hv'
    obtain ⟨-, hwidth, hmsb⟩ := fieldTable_legal hrow
    obtain ⟨-, hwidth', hmsb'⟩ := fieldTable_legal hrow'
    refine ⟨_, _, _, setf_succeeds s hrow hw hv, fun s' => setf_succeeds s' hrow' hw' hv',
      setf_succeeds s hrow' hw' hv', fun s' => ?_⟩
    simp only [aLo_zext32]
    rw [insertField_comm hwidth hmsb hv hwidth' hmsb' hv' hdis]
    exact setf_succeeds s' hrow hw hv

end Sys2Proof.Machine

/-! # The latency ROM: what LAT returns, and the laws of the table as R90 prints it

LAT has one rule per outcome: reserved bits first, then the index, then the entry.  The table at its default is indexed
by cycle and averaging setting; it does not fall from one entry to the next along a row or a column, and so along both
at once. -/

namespace Sys2Proof.Machine

/-! ## LAT (R91) -/

theorem wellFormed_lat_iff (cycle : Word) (avg : Half) (p : BitVec 12) :
    (Instr.lat cycle avg p).wellFormed = true ↔ p = 0 := by
  simp [Instr.wellFormed]

section Lat

variable {cycle : Word} {avg : Half} (s : State)

theorem lat_succeeds (hc : cycle.toNat ≤ 7) (ha : avg.toNat ≤ 3) :
    Succeeds (.lat cycle avg 0) s
      (zext32 (romRead s.params.latRom (BitVec.ofNat 5 (4 * cycle.toNat + avg.toNat)))) :=
  succeeds_of_eval (evalInstr_lat_legal _ hc ha)

theorem lat_failsWith_latIndex (h : 7 < cycle.toNat ∨ 3 < avg.toNat) : FailsWith (.lat cycle avg 0) s 8 := by
  have hclear : reservedSet (.lat cycle avg 0) = false := (reservedSet_lat_eq_false_iff cycle avg 0).2 rfl
  exact failsWith_of_eval ((unlessReserved_of_clear hclear _).trans (latResult_index _ h))

end Lat

/-- Settles O23: each outcome has its rule, and a legal index lies inside the table. -/
theorem latReadsTheRom : Obligations.LatReadsTheRom := by
  intro cycle avg p s
  refine ⟨decode_enc_lat p avg cycle, ?outcomes, fun h => failsWith_rsvd (mt (wellFormed_lat_iff cycle avg p).1 h) s⟩
  case outcomes =>
    rintro rfl
    exact ⟨fun ⟨hc, ha⟩ => ⟨_, _, romTable_getElem?_eq_romRead _ (by omega), lat_succeeds s hc ha, zext32_toNat _⟩,
      lat_failsWith_latIndex s⟩

/-! ## The table as printed (R90, R92) -/

/-- The entry LAT reads for a legal cycle and averaging setting, in units of 0.5 ms (R89). -/
def romEntry (l : LatRom) (c : Fin 8) (a : Fin 4) : Half := romRead l (BitVec.ofNat 5 (4 * c + a))

/-- Rows 4 to 7 are constant. -/
theorem romEntry_default_avg_irrelevant {c : Fin 8} (hc : 4 ≤ c) (a : Fin 4) :
    romEntry latRomDefault c a = romEntry latRomDefault c 0 := by
  revert c a
  decide

theorem romRead_default_range (i : BitVec 5) :
    31 ≤ (romRead latRomDefault i).toNat ∧ (romRead latRomDefault i).toNat ≤ 32000 := by
  revert i
  decide

/-- Along a row, from each entry to the next. -/
theorem romEntry_default_monotone_avg (c : Fin 8) : Monotone fun a => (romEntry latRomDefault c a).toNat := by
  refine Fin.monotone_iff_le_succ.2 ?_
  revert c
  decide

/-- Along a column, from each entry to the next. -/
theorem romEntry_default_monotone_cycle (a : Fin 4) : Monotone fun c => (romEntry latRomDefault c a).toNat := by
  refine Fin.monotone_iff_le_succ.2 ?_
  revert a
  decide

theorem romEntry_default_le {c c' : Fin 8} {a a' : Fin 4} (hc : c ≤ c') (ha : a ≤ a') :
    (romEntry latRomDefault c a).toNat ≤ (romEntry latRomDefault c' a').toNat :=
  calc (romEntry latRomDefault c a).toNat
    _ ≤ (romEntry latRomDefault c a').toNat := romEntry_default_monotone_avg c ha
    _ ≤ (romEntry latRomDefault c' a').toNat := romEntry_default_monotone_cycle a' hc

/-- Settles O25: the indices of the statement are those of `romEntry`, whose laws are the three clauses. -/
theorem latRomLaws : Obligations.LatRomLaws := by
  intro s hrom
  rw [hrom]
  refine ⟨fun c a a' hc4 hc7 ha ha' => ?constant, romRead_default_range, fun c c' a a' hc hc7 ha ha3 => ?monotone⟩
  case constant =>
    have hrow (b : Nat) (hb : b ≤ 3) :=
      romEntry_default_avg_irrelevant (c := ⟨c, by omega⟩) hc4 ⟨b, by omega⟩
    exact (hrow a ha).trans (hrow a' ha').symm
  case monotone =>
    exact romEntry_default_le (c := ⟨c, by omega⟩) (c' := ⟨c', by omega⟩) (a := ⟨a, by omega⟩) (a' := ⟨a', by omega⟩)
      hc ha

end Sys2Proof.Machine

/-! # The clock edge without a reset: an accepted command and an idle edge (R101 to R103)

With RST = 0 an edge does one of two things, whatever word CMD holds: it commits the command's result, or it clears
DONE.  What a commit writes is then said per result. -/

namespace Sys2Proof.Machine

theorem clockEdge_accepted (c : Cmd) (s : State) :
    clockEdge ⟨false, true, c⟩ s = .next (s.commit (evalCmd s.params.latRom c)) := clockEdge_eq ⟨false, true, c⟩ s

theorem clockEdge_idle (c : Cmd) (s : State) : clockEdge ⟨false, false, c⟩ s = .next s.idleEdge :=
  clockEdge_eq ⟨false, false, c⟩ s

theorem State.commit_ok (s : State) (v : Word) :
    s.commit (.ok v) = { s with tmpc := { s.tmpc with res := v, err := false, ecode := 0, done := true } } := rfl

theorem State.commit_fail (s : State) (e : ErrCode) :
    s.commit (.fail e) = { s with tmpc := { s.tmpc with err := true, errs := true, ecode := e.code, done := true } } :=
  rfl

theorem State.idleEdge_eq (s : State) : s.idleEdge = { s with tmpc := { s.tmpc with done := false } } := rfl

/-- Settles O7: an accepted edge commits the result of the word, which is a success or a failure. -/
theorem acceptedEdgeCommitsTheResult : Obligations.AcceptedEdgeCommitsTheResult := by
  intro c s
  refine ⟨fun v hok => ?success, fun e hfail => ?failure⟩
  case success => rw [clockEdge_accepted, hok, State.commit_ok]
  case failure => rw [clockEdge_accepted, hfail, State.commit_fail]

/-- Settles O10: an edge without a reset and without a command is idle. -/
theorem idleEdgeWritesDoneOnly : Obligations.IdleEdgeWritesDoneOnly := by
  intro s c
  rw [clockEdge_idle, State.idleEdge_eq]

end Sys2Proof.Machine

/-! # The reset edge (R110)

With RST = 1 neither CMD_VALID nor CMD matters: the edge is the reset edge, which replaces TMPC's registers and writes
no other part of the state. -/

namespace Sys2Proof.Machine

theorem clockEdge_reset (valid : Bool) (c : Cmd) (s : State) : clockEdge ⟨true, valid, c⟩ s = .next s.resetEdge :=
  clockEdge_eq ⟨true, valid, c⟩ s

theorem State.resetEdge_eq (s : State) :
    s.resetEdge = { s with tmpc := { res := 0, err := false, errs := false, ecode := 0, done := false } } := rfl

/-- Settles O11: an edge with RST = 1 is the reset edge, whatever the other pins hold. -/
theorem resetEdgeClearsTmpcOnly : Obligations.ResetEdgeClearsTmpcOnly := by
  intro s valid c
  rw [clockEdge_reset, State.resetEdge_eq]

end Sys2Proof.Machine

/-! # Decoding and encoding are inverse to each other

Decoding cuts the four fields of a word into the command's parts; encoding joins them again.  The field equations
`decode_enc_*` give one direction.  For the other, a decoded command has the opcode and the fields of its word, and a
word is determined by them. -/

namespace Sys2Proof

/-- Settles O3: the decoder's equation for the command's opcode, and the parts of A and P read back. -/
theorem decodeOfEncodeIsTheCommand : Obligations.DecodeOfEncodeIsTheCommand := by
  intro i
  cases i <;> simp only [encode, Instr.opcode, Instr.pBits, Instr.bBits, Instr.aBits]
  case cnt2c => rw [decode_enc_cnt2c, aLo_append, aHi_append]
  case cnt2f => rw [decode_enc_cnt2f, aLo_append, aHi_append]
  case c2cnt => rw [decode_enc_c2cnt]
  case pack => rw [decode_enc_pack, aLo_append, aHi_append, pLow_geometry, pWidth_geometry, pHi3_geometry]
  case unpack => rw [decode_enc_unpack, aLo_append, aHi_append, pLow_geometry, pWidth_geometry, pHi3_geometry]
  case getf => rw [decode_enc_getf, aLo_append, aHi_append, pLow_fid, pHi8_fid]
  case setf => rw [decode_enc_setf, aLo_append, aHi_append, pLow_fid, pHi8_fid]
  case lat => rw [decode_enc_lat]

@[simp] theorem decode_encode (i : Instr) : decode (encode i) = .ok i := decodeOfEncodeIsTheCommand i

/-- Every part of a decoded command comes from its place in the word. -/
theorem fields_of_decode {c : Cmd} {i : Instr} (h : decode c = .ok i) :
    i.opcode = opField c ∧ i.pBits = pField c ∧ i.bBits = bField c ∧ i.aBits = aField c := by
  unfold decode at h
  split at h <;> cases h
  all_goals
    rename_i hop
    refine ⟨BitVec.eq_of_toNat_eq hop.symm, ?_, rfl, ?_⟩ <;>
      simp only [Instr.pBits, Instr.aBits, geometry_parts, fid_parts, aHi_aLo]

/-- Settles O4: a decoded command has its word's four fields, and they determine the word. -/
theorem encodeOfDecodeIsTheWord : Obligations.EncodeOfDecodeIsTheWord := by
  intro c i h
  obtain ⟨hop, hp, hb, ha⟩ := fields_of_decode h
  rw [encode, hop, hp, hb, ha, enc_fields]

/-- Settles O1: closed words, decoded by evaluation. -/
theorem decodesWordsWrittenFromTheSpec : Obligations.DecodesWordsWrittenFromTheSpec := by
  unfold Obligations.DecodesWordsWrittenFromTheSpec
  decide

end Sys2Proof

/-! # The assembler on integer operands (R68)

An unsigned operand is accepted exactly when it fits its field, and the field then holds it; a count is accepted from
-32768 to 65535 and the field holds its low 16 bits.  The word of a line is the weighted sum of its fields. -/

namespace Sys2Proof.Machine

theorem exists_field {n : Nat} {v : Int} (h : 0 ≤ v ∧ v < 2 ^ n) : ∃ x : BitVec n, v = x.toNat := by
  refine ⟨BitVec.ofInt n v, ?_⟩
  rw [BitVec.toNat_ofInt, Int.emod_eq_of_lt h.1 (by exact_mod_cast h.2), Int.toNat_of_nonneg h.1]

theorem asmField_eq_some_iff {n : Nat} {v : Int} {x : BitVec n} : asmField n v = some x ↔ v = x.toNat := by
  by_cases h : 0 ≤ v ∧ v < 2 ^ n
  · obtain ⟨y, rfl⟩ := exists_field h
    rw [asmField, if_pos h, BitVec.ofInt_natCast, BitVec.ofNat_toNat, BitVec.setWidth_eq, Option.some.injEq,
      Nat.cast_inj, BitVec.toNat_inj]
  · rw [asmField, if_neg h]
    refine iff_of_false (by simp) ?_
    rintro rfl
    exact h ⟨Int.natCast_nonneg _, by exact_mod_cast x.isLt⟩

@[simp] theorem asmField_toNat {n : Nat} (x : BitVec n) : asmField n x.toNat = some x := asmField_eq_some_iff.2 rfl

theorem asmCount_of_fits {v : Int} (h : -32768 ≤ v ∧ v ≤ 65535) :
    ∃ x : Half, asmCount v = some x ∧ (x.toNat : Int) = v % 65536 := by
  refine ⟨BitVec.ofInt 16 v, if_pos h, ?_⟩
  rw [BitVec.toNat_ofInt]
  omega

theorem asmCin_of_signed {v : Int} (h : -2147483648 ≤ v ∧ v ≤ 2147483647) :
    ∃ x : Word, asmCin v = some x ∧ (x.toNat : Int) = v % 4294967296 := by
  refine ⟨BitVec.ofInt 32 v, if_pos (by omega), ?_⟩
  rw [BitVec.toNat_ofInt]
  omega

/-! ## The word of each command without reserved bits, as a number (R67) -/

/-- A with A[31:16] clear. -/
theorem aBits_toNat (c : Half) : (0#16 ++ c : Word).toNat = c.toNat :=
  (toNat_append_eq_sum 0#16 c).trans (by simp)

/-- P of a PACK or UNPACK. -/
theorem geometryBits_toNat (w : BitVec 5) (m : BitVec 4) : (0#3 ++ w ++ m : BitVec 12).toNat = 16 * w.toNat + m.toNat :=
  geometry_toNat w m

/-- P of a GETF or SETF. -/
theorem fidBits_toNat (f : BitVec 4) : (0#8 ++ f : BitVec 12).toNat = f.toNat := fid_toNat f

section Words

variable (c v : Half) (m f : BitVec 4) (w : BitVec 5)

theorem encode_cnt2c_toNat : (encode (.cnt2c c 0 0 0)).toNat = 1 * 2 ^ 60 + c.toNat := by
  simp [encode, enc_toNat, Instr.opcode, Instr.pBits, Instr.bBits, Instr.aBits, aBits_toNat]

theorem encode_cnt2f_toNat : (encode (.cnt2f c 0 0 0)).toNat = 2 * 2 ^ 60 + c.toNat := by
  simp [encode, enc_toNat, Instr.opcode, Instr.pBits, Instr.bBits, Instr.aBits, aBits_toNat]

theorem encode_c2cnt_toNat (cin : Word) : (encode (.c2cnt cin 0 0)).toNat = 3 * 2 ^ 60 + cin.toNat := by
  simp [encode, enc_toNat, Instr.opcode, Instr.pBits, Instr.bBits, Instr.aBits]

theorem encode_pack_toNat : (encode (.pack c v m w 0 0)).toNat =
    4 * 2 ^ 60 + (16 * w.toNat + m.toNat) * 2 ^ 48 + v.toNat * 2 ^ 32 + c.toNat := by
  simp [encode, enc_toNat, Instr.opcode, Instr.pBits, Instr.bBits, Instr.aBits, aBits_toNat, geometryBits_toNat]

theorem encode_unpack_toNat : (encode (.unpack c m w 0 0 0)).toNat =
    5 * 2 ^ 60 + (16 * w.toNat + m.toNat) * 2 ^ 48 + c.toNat := by
  simp [encode, enc_toNat, Instr.opcode, Instr.pBits, Instr.bBits, Instr.aBits, aBits_toNat, geometryBits_toNat]

theorem encode_getf_toNat : (encode (.getf c f 0 0 0)).toNat = 6 * 2 ^ 60 + f.toNat * 2 ^ 48 + c.toNat := by
  simp [encode, enc_toNat, Instr.opcode, Instr.pBits, Instr.bBits, Instr.aBits, aBits_toNat, fidBits_toNat]

theorem encode_setf_toNat : (encode (.setf c v f 0 0)).toNat =
    7 * 2 ^ 60 + f.toNat * 2 ^ 48 + v.toNat * 2 ^ 32 + c.toNat := by
  simp [encode, enc_toNat, Instr.opcode, Instr.pBits, Instr.bBits, Instr.aBits, aBits_toNat, fidBits_toNat]

theorem encode_lat_toNat (cycle : Word) (avg : Half) :
    (encode (.lat cycle avg 0)).toNat = 8 * 2 ^ 60 + avg.toNat * 2 ^ 32 + cycle.toNat := by
  simp [encode, enc_toNat, Instr.opcode, Instr.pBits, Instr.bBits, Instr.aBits]

end Words

/-! ## Lines with several operands: each fits its field, or the line is refused -/

theorem assemble_pack_fits {c v m w : Int} (hc : 0 ≤ c ∧ c < 65536) (hv : 0 ≤ v ∧ v < 65536) (hm : 0 ≤ m ∧ m ≤ 15)
    (hw : 0 ≤ w ∧ w ≤ 31) :
    ∃ x : Cmd, assemble (.pack c v m w) = some ⟨false, true, x⟩ ∧
      (x.toNat : Int) = 4 * 2 ^ 60 + (16 * w + m) * 2 ^ 48 + v * 2 ^ 32 + c := by
  obtain ⟨xc, rfl⟩ := exists_field (n := 16) (v := c) (by omega)
  obtain ⟨xv, rfl⟩ := exists_field (n := 16) (v := v) (by omega)
  obtain ⟨xm, rfl⟩ := exists_field (n := 4) (v := m) (by omega)
  obtain ⟨xw, rfl⟩ := exists_field (n := 5) (v := w) (by omega)
  exact ⟨encode (.pack xc xv xm xw 0 0), by simp [assemble, asmCommand], by exact_mod_cast encode_pack_toNat xc xv xm xw⟩

theorem assemble_unpack_fits {c m w : Int} (hc : 0 ≤ c ∧ c < 65536) (hm : 0 ≤ m ∧ m ≤ 15) (hw : 0 ≤ w ∧ w ≤ 31) :
    ∃ x : Cmd, assemble (.unpack c m w) = some ⟨false, true, x⟩ ∧
      (x.toNat : Int) = 5 * 2 ^ 60 + (16 * w + m) * 2 ^ 48 + c := by
  obtain ⟨xc, rfl⟩ := exists_field (n := 16) (v := c) (by omega)
  obtain ⟨xm, rfl⟩ := exists_field (n := 4) (v := m) (by omega)
  obtain ⟨xw, rfl⟩ := exists_field (n := 5) (v := w) (by omega)
  exact ⟨encode (.unpack xc xm xw 0 0 0), by simp [assemble, asmCommand], by exact_mod_cast encode_unpack_toNat xc xm xw⟩

theorem assemble_getf_fits {c f : Int} (hc : 0 ≤ c ∧ c < 65536) (hf : 0 ≤ f ∧ f ≤ 15) :
    ∃ x : Cmd, assemble (.getf c f) = some ⟨false, true, x⟩ ∧ (x.toNat : Int) = 6 * 2 ^ 60 + f * 2 ^ 48 + c := by
  obtain ⟨xc, rfl⟩ := exists_field (n := 16) (v := c) (by omega)
  obtain ⟨xf, rfl⟩ := exists_field (n := 4) (v := f) (by omega)
  exact ⟨encode (.getf xc xf 0 0 0), by simp [assemble, asmCommand], by exact_mod_cast encode_getf_toNat xc xf⟩

theorem assemble_setf_fits {c v f : Int} (hc : 0 ≤ c ∧ c < 65536) (hv : 0 ≤ v ∧ v < 65536) (hf : 0 ≤ f ∧ f ≤ 15) :
    ∃ x : Cmd, assemble (.setf c v f) = some ⟨false, true, x⟩ ∧
      (x.toNat : Int) = 7 * 2 ^ 60 + f * 2 ^ 48 + v * 2 ^ 32 + c := by
  obtain ⟨xc, rfl⟩ := exists_field (n := 16) (v := c) (by omega)
  obtain ⟨xv, rfl⟩ := exists_field (n := 16) (v := v) (by omega)
  obtain ⟨xf, rfl⟩ := exists_field (n := 4) (v := f) (by omega)
  exact ⟨encode (.setf xc xv xf 0 0), by simp [assemble, asmCommand], by exact_mod_cast encode_setf_toNat xc xv xf⟩

theorem assemble_lat_fits {c a : Int} (hc : 0 ≤ c ∧ c < 4294967296) (ha : 0 ≤ a ∧ a < 65536) :
    ∃ x : Cmd, assemble (.lat c a) = some ⟨false, true, x⟩ ∧ (x.toNat : Int) = 8 * 2 ^ 60 + a * 2 ^ 32 + c := by
  obtain ⟨xc, rfl⟩ := exists_field (n := 32) (v := c) (by omega)
  obtain ⟨xa, rfl⟩ := exists_field (n := 16) (v := a) (by omega)
  exact ⟨encode (.lat xc xa 0), by simp [assemble, asmCommand], by exact_mod_cast encode_lat_toNat xc xa⟩

/-! ## Refusals -/

/-- Each operand of the line fits its field (R68). -/
def AsmLine.OperandsFit : AsmLine → Prop
  | .cnt2c n | .cnt2f n => -32768 ≤ n ∧ n ≤ 65535
  | .c2cnt cin => -2147483648 ≤ cin ∧ cin ≤ 4294967295
  | .pack c v m w => (0 ≤ c ∧ c < 65536) ∧ (0 ≤ v ∧ v < 65536) ∧ (0 ≤ m ∧ m ≤ 15) ∧ 0 ≤ w ∧ w ≤ 31
  | .unpack c m w => (0 ≤ c ∧ c < 65536) ∧ (0 ≤ m ∧ m ≤ 15) ∧ 0 ≤ w ∧ w ≤ 31
  | .getf c f => (0 ≤ c ∧ c < 65536) ∧ 0 ≤ f ∧ f ≤ 15
  | .setf c v f => (0 ≤ c ∧ c < 65536) ∧ (0 ≤ v ∧ v < 65536) ∧ 0 ≤ f ∧ f ≤ 15
  | .lat c a => (0 ≤ c ∧ c < 4294967296) ∧ 0 ≤ a ∧ a < 65536
  | .idle => True
  | .word w => 0 ≤ w ∧ w < 18446744073709551616

theorem operandsFit_of_assemble {l : AsmLine} {p : Pins} (h : assemble l = some p) : l.OperandsFit := by
  cases l <;> simp only [assemble, AsmLine.OperandsFit, Option.bind_eq_bind, Option.bind_eq_some_iff,
    Option.map_eq_some_iff, asmField_eq_some_iff] at h ⊢
  case cnt2c | cnt2f | c2cnt =>
    obtain ⟨x, hx, -⟩ := h
    exact (Option.ite_none_right_eq_some.1 hx).1
  case word =>
    obtain ⟨x, rfl, -⟩ := h
    omega
  case pack =>
    obtain ⟨x, rfl, y, rfl, z, rfl, t, rfl, -⟩ := h
    omega
  case unpack | setf =>
    obtain ⟨x, rfl, y, rfl, z, rfl, -⟩ := h
    omega
  case getf | lat =>
    obtain ⟨x, rfl, y, rfl, -⟩ := h
    omega

/-- The assembler refuses a line with an operand that does not fit its field. -/
theorem assemble_eq_none {l : AsmLine} (h : ¬l.OperandsFit) : assemble l = none :=
  Option.eq_none_iff_forall_ne_some.2 fun _ hp => h (operandsFit_of_assemble hp)

/-! ## Lines with one operand -/

theorem assemble_cnt2c_fits {n : Int} (h : -32768 ≤ n ∧ n ≤ 65535) :
    ∃ w : Cmd, assemble (.cnt2c n) = some ⟨false, true, w⟩ ∧ (w.toNat : Int) = 1 * 2 ^ 60 + n % 65536 := by
  obtain ⟨x, hx, hv⟩ := asmCount_of_fits h
  refine ⟨encode (.cnt2c x 0 0 0), by simp [assemble, hx, asmCommand], ?_⟩
  rw [encode_cnt2c_toNat, ← hv]
  norm_cast

theorem assemble_cnt2f_fits {n : Int} (h : -32768 ≤ n ∧ n ≤ 65535) :
    ∃ w : Cmd, assemble (.cnt2f n) = some ⟨false, true, w⟩ ∧ (w.toNat : Int) = 2 * 2 ^ 60 + n % 65536 := by
  obtain ⟨x, hx, hv⟩ := asmCount_of_fits h
  refine ⟨encode (.cnt2f x 0 0 0), by simp [assemble, hx, asmCommand], ?_⟩
  rw [encode_cnt2f_toNat, ← hv]
  norm_cast

theorem assemble_c2cnt_fits {cin : Int} (h : -2147483648 ≤ cin ∧ cin ≤ 2147483647) :
    ∃ w : Cmd, assemble (.c2cnt cin) = some ⟨false, true, w⟩ ∧ (w.toNat : Int) = 3 * 2 ^ 60 + cin % 4294967296 := by
  obtain ⟨x, hx, hv⟩ := asmCin_of_signed h
  refine ⟨encode (.c2cnt x 0 0), by simp [assemble, hx, asmCommand], ?_⟩
  rw [encode_c2cnt_toNat, ← hv]
  norm_cast

theorem assemble_word_fits {w : Int} (h : 0 ≤ w ∧ w < 18446744073709551616) :
    ∃ x : Cmd, assemble (.word w) = some ⟨false, true, x⟩ ∧ (x.toNat : Int) = w := by
  obtain ⟨x, rfl⟩ := exists_field (n := 64) h
  exact ⟨x, by simp [assemble], rfl⟩

/-- Settles O60: each form assembles when its operands fit, by its lemma above, and is refused when one does not. -/
theorem assemblerEncodesOrRefuses : Obligations.AssemblerEncodesOrRefuses := by
  refine ⟨fun n => ⟨fun h => ⟨assemble_cnt2c_fits h, assemble_cnt2f_fits h⟩,
      fun h => ⟨assemble_eq_none h, assemble_eq_none h⟩⟩,
    fun cin => assemble_c2cnt_fits,
    fun c v m w => ⟨fun ⟨hc, hv, hm, hw⟩ => assemble_pack_fits hc hv hm hw, fun h => assemble_eq_none h⟩,
    fun c m w => ⟨fun ⟨hc, hm, hw⟩ => assemble_unpack_fits hc hm hw, fun h => assemble_eq_none h⟩,
    fun c f => ⟨fun ⟨hc, hf⟩ => assemble_getf_fits hc hf, fun h => assemble_eq_none h⟩,
    fun c v f => ⟨fun ⟨hc, hv, hf⟩ => assemble_setf_fits hc hv hf, fun h => assemble_eq_none h⟩,
    fun c a => ⟨fun ⟨hc, ha⟩ => assemble_lat_fits hc ha, fun h => assemble_eq_none h⟩,
    fun w => assemble_word_fits, ⟨_, rfl⟩⟩

end Sys2Proof.Machine

/-! # The disassembler and its text (R70)

A word disassembles as `.word`, or it is the encoding of a well-formed command and disassembles as that command's line.
Either line assembles back to the word, because every operand is printed from the field it is assembled into.  On the
text, a printed operand is a plain word that reads back as its number. -/

namespace Sys2Proof.Machine

/-- The line of a command with its operand fields in the order of R68. -/
def operandLine : Instr → AsmLine
  | .cnt2c count _ _ _ => .cnt2c count.toNat
  | .cnt2f count _ _ _ => .cnt2f count.toNat
  | .c2cnt cin _ _ => .c2cnt cin.toNat
  | .pack container value msb width _ _ => .pack container.toNat value.toNat msb.toNat width.toNat
  | .unpack container msb width _ _ _ => .unpack container.toNat msb.toNat width.toNat
  | .getf container fid _ _ _ => .getf container.toNat fid.toNat
  | .setf container value fid _ _ => .setf container.toNat value.toNat fid.toNat
  | .lat cycle avg _ => .lat cycle.toNat avg.toNat

theorem disassemble_of_decode {c : Cmd} {i : Instr} (h : decode c = .ok i) (hw : i.wellFormed = true) :
    disassemble c = operandLine i := by
  simp only [disassemble, h, (reservedSet_eq_false_iff i).2 hw, Bool.false_eq_true, if_false]
  cases i <;> rfl

theorem disassemble_of_reserved {c : Cmd} {i : Instr} (h : decode c = .ok i) (hw : i.wellFormed = false) :
    disassemble c = .word c.toNat := by
  simp only [disassemble, h, (reservedSet_eq_true_iff i).2 hw, if_true]

theorem disassemble_of_illegalOp {c : Cmd} (h : (opField c).toNat = 0 ∨ 8 < (opField c).toNat) :
    disassemble c = .word c.toNat := by
  rw [disassemble, decode_of_illegalOp h]

theorem disassemble_encode {i : Instr} (hw : i.wellFormed = true) : disassemble (encode i) = operandLine i :=
  disassemble_of_decode (decode_encode i) hw

/-- What a word can disassemble as. -/
theorem disassemble_cases (c : Cmd) :
    disassemble c = .word c.toNat ∨ ∃ i : Instr, i.wellFormed = true ∧ c = encode i ∧ disassemble c = operandLine i := by
  cases hd : decode c with
  | error e => exact .inl (by rw [disassemble, hd])
  | ok i =>
    cases hw : i.wellFormed with
    | false => exact .inl (disassemble_of_reserved hd hw)
    | true => exact .inr ⟨i, hw, (encodeOfDecodeIsTheWord c i hd).symm, disassemble_of_decode hd hw⟩

/-! ## Back to the word -/

theorem assemble_word_toNat (c : Cmd) : assemble (.word c.toNat) = some ⟨false, true, c⟩ := by
  rw [assemble, asmField_toNat]
  rfl

@[simp] theorem asmCount_toNat (c : Half) : asmCount c.toNat = some c := by
  have hc := c.isLt
  rw [asmCount, if_pos (by omega), BitVec.ofInt_natCast, BitVec.ofNat_toNat, BitVec.setWidth_eq]

@[simp] theorem asmCin_toNat (c : Word) : asmCin c.toNat = some c := by
  have hc := c.isLt
  rw [asmCin, if_pos (by omega), BitVec.ofInt_natCast, BitVec.ofNat_toNat, BitVec.setWidth_eq]

/-- A well-formed command has zeros outside its operands, and its line holds the operands. -/
theorem assemble_operandLine {i : Instr} (hw : i.wellFormed = true) :
    assemble (operandLine i) = some ⟨false, true, encode i⟩ := by
  cases i <;> simp only [Instr.wellFormed, Bool.and_eq_true, beq_iff_eq] at hw <;>
    simp [operandLine, assemble, asmCommand, hw]

theorem assemble_disassemble (c : Cmd) : assemble (disassemble c) = some ⟨false, true, c⟩ := by
  obtain h | ⟨i, hw, rfl, h⟩ := disassemble_cases c
  · rw [h, assemble_word_toNat]
  · rw [h, assemble_operandLine hw]

theorem illegalOp_toNat {op : BitVec 4} (h : op = 0 ∨ 8 < op.toNat) : op.toNat = 0 ∨ 8 < op.toNat :=
  h.imp_left (congrArg BitVec.toNat)

/-- Settles O58: each command without reserved bits is well formed, and every line assembles back. -/
theorem disassemblyAssemblesBack : Obligations.DisassemblyAssemblesBack :=
  ⟨⟨fun _ => disassemble_encode rfl, fun _ => disassemble_encode rfl, fun _ => disassemble_encode rfl,
      fun _ _ _ _ => disassemble_encode rfl, fun _ _ _ => disassemble_encode rfl, fun _ _ => disassemble_encode rfl,
      fun _ _ _ => disassemble_encode rfl, fun _ _ => disassemble_encode rfl⟩,
    fun _ h => disassemble_of_illegalOp (illegalOp_toNat h), assemble_disassemble⟩

/-! ## The text -/

theorem disassembleText_encode {i : Instr} (hw : i.wellFormed = true) :
    disassembleText (encode i) = (operandLine i).text := by
  rw [disassembleText, disassemble_encode hw]

theorem disassembleText_of_illegalOp {c : Cmd} (h : (opField c).toNat = 0 ∨ 8 < (opField c).toNat) :
    disassembleText c = lineText ".word" [hexText 16 c.toNat] := by
  rw [disassembleText, disassemble_of_illegalOp h]
  rfl

/-- An operand printed with the digits of its field reads back. -/
theorem readNumber_hexText_toNat {n k : Nat} (x : BitVec n) (hk : 0 < k) (h : 2 ^ n ≤ 16 ^ k) :
    readNumber (hexText k (x.toNat : Int)) = some (x.toNat : Int) :=
  readNumber_hexText hk (x.isLt.trans_le h)

/-- A line whose operands are printed numbers is read as its mnemonic with those operands. -/
theorem readLine_hexTexts {m : String} {ws : List (List Char)} {l : AsmLine} (hm : PlainWord m.toList) (hne : ws ≠ [])
    (hhex : ∀ w ∈ ws, ∃ k v, w = hexText k v) (hl : readCommand m.toList ws = some l) :
    readLine (String.ofList (lineText m ws)) = some l := by
  refine readLine_lineText hm hne (fun w hw => ?_) hl
  obtain ⟨k, v, rfl⟩ := hhex w hw
  exact plainWord_hexText k v

theorem readLine_word (c : Cmd) : readLine (String.ofList (AsmLine.word c.toNat).text) = some (.word c.toNat) := by
  refine readLine_hexTexts (by simp [PlainWord]) (by simp) (by simp) ?_
  simp [readCommand, readNumber_hexText_toNat c]

/-- The printed line of a command reads back, operand by operand. -/
theorem readLine_operandLine (i : Instr) : readLine (String.ofList (operandLine i).text) = some (operandLine i) := by
  cases i <;> refine readLine_hexTexts (by simp [PlainWord]) (by simp) (by simp) ?_
  case cnt2c count _ _ _ => simp [readCommand, operandLine, readNumber_hexText_toNat count]
  case cnt2f count _ _ _ => simp [readCommand, operandLine, readNumber_hexText_toNat count]
  case c2cnt cin _ _ => simp [readCommand, operandLine, readCin_hexText, readNumber_hexText_toNat cin]
  case pack c v m w _ _ =>
    simp [readCommand, operandLine, readNumber_hexText_toNat c, readNumber_hexText_toNat v, readNumber_hexText_toNat m,
      readNumber_hexText_toNat w]
  case unpack c m w _ _ _ =>
    simp [readCommand, operandLine, readNumber_hexText_toNat c, readNumber_hexText_toNat m, readNumber_hexText_toNat w]
  case getf c f _ _ _ =>
    simp [readCommand, operandLine, readFid_hexText, readNumber_hexText_toNat c, readNumber_hexText_toNat f]
  case setf c v f _ _ =>
    simp [readCommand, operandLine, readFid_hexText, readNumber_hexText_toNat c, readNumber_hexText_toNat v,
      readNumber_hexText_toNat f]
  case lat cycle avg _ =>
    simp [readCommand, operandLine, readNumber_hexText_toNat cycle, readNumber_hexText_toNat avg]

theorem readLine_disassembleText (c : Cmd) : readLine (String.ofList (disassembleText c)) = some (disassemble c) := by
  obtain h | ⟨i, -, -, h⟩ := disassemble_cases c
  · rw [disassembleText, h, readLine_word]
  · rw [disassembleText, h, readLine_operandLine]

/-- Settles O59: the text is that of the word's line, it is read as that line, and the line assembles back. -/
theorem printedDisassemblyReadsBack : Obligations.PrintedDisassemblyReadsBack := by
  refine ⟨⟨fun _ => disassembleText_encode rfl, fun _ => disassembleText_encode rfl,
      fun _ => disassembleText_encode rfl, fun _ _ _ _ => disassembleText_encode rfl,
      fun _ _ _ => disassembleText_encode rfl, fun _ _ => disassembleText_encode rfl,
      fun _ _ _ => disassembleText_encode rfl, fun _ _ => disassembleText_encode rfl⟩,
    fun _ h => disassembleText_of_illegalOp (illegalOp_toNat h), fun c => ?_⟩
  rw [assembleText, readLine_disassembleText]
  exact assemble_disassemble c

end Sys2Proof.Machine

/-! # The commands at an accepted edge: precise, and a function of the word and the ROM (R94, R95)

`exec` commits `evalInstr` of the command, which is a success or a failure by a code of 1 to 8, so what `Succeeds` and
`FailsWith` say of a state is what `evalInstr` returns for its ROM. -/

namespace Sys2Proof.Machine

theorem failsWith_iff_eval {i : Instr} {s : State} {k : BitVec 4} :
    FailsWith i s k ↔ ∃ e : ErrCode, e.code = k ∧ evalInstr s.params.latRom i = .fail e := by
  constructor
  · intro h
    rw [FailsWith, exec_eq_commit, Host.Outcome.next.injEq] at h
    cases hr : evalInstr s.params.latRom i with
    | ok v => simpa [hr] using congrArg (fun t => t.tmpc.err) h
    | fail e => exact ⟨e, by simpa [hr] using congrArg (fun t => t.tmpc.ecode) h, rfl⟩
  · rintro ⟨e, rfl, h⟩
    exact failsWith_of_eval h

/-- Settles O8: what the command's rule returns is committed, and a failure's code is one of R98's. -/
theorem everyCommandCompletesAndIsPrecise : Obligations.EveryCommandCompletesAndIsPrecise := by
  intro i s
  cases h : evalInstr s.params.latRom i with
  | ok v => exact .inl ⟨v, succeeds_of_eval h⟩
  | fail e => exact .inr ⟨e.code, e.code_range.1, e.code_range.2, failsWith_of_eval h⟩

/-- Settles O9: both outcomes are equations about the command and the ROM. -/
theorem resultDependsOnTheCommandAlone : Obligations.ResultDependsOnTheCommandAlone := by
  intro i s s' hrom
  refine ⟨fun v h => ?_, fun k h => ?_⟩
  · rwa [succeeds_iff_eval, ← hrom, ← succeeds_iff_eval]
  · rwa [failsWith_iff_eval, ← hrom, ← failsWith_iff_eval]

/-- Settles O24: LAT reads the table, whose cells (0,0), (4,a) and (7,a) do not depend on `LAT_ROM`. -/
theorem latSourceCells : Obligations.LatSourceCells := by
  intro s
  refine ⟨lat_succeeds s (by decide) (by decide), fun a ha => ⟨?_, ?_⟩⟩
  · have h := lat_succeeds (cycle := 4) s (by decide) ha
    have hcell : romRead s.params.latRom (BitVec.ofNat 5 (4 * (4 : Word).toNat + a.toNat)) = 2000 := by
      interval_cases a.toNat <;> rfl
    rwa [hcell] at h
  · have h := lat_succeeds (cycle := 7) s (by decide) ha
    have hcell : romRead s.params.latRom (BitVec.ofNat 5 (4 * (7 : Word).toNat + a.toNat)) = 32000 := by
      interval_cases a.toNat <;> rfl
    rwa [hcell] at h

/-- Settles O12: STAT_O is a concatenation, and each bit falls into one of its parts. -/
theorem statusPortShowsTheFlags : Obligations.StatusPortShowsTheFlags := by
  intro s
  refine ⟨rfl, ?_, ?_, ?_, ?_, extract_low _ s.tmpc.ecode⟩
  all_goals
    simp only [State.statO, Tmpc.statO, BitVec.getLsbD_append]
    simp

end Sys2Proof.Machine

/-! # One step of the machine

Every claim about a step is read off `step_next`: a step that drives TMPC's pins is one `Tmpc.edge`, any other leaves
TMPC alone.  What `Tmpc.edge` does is said per kind of edge. -/

namespace Sys2Proof.Machine

section Edge

variable {l : LatRom} {p : Pins} {t : Tmpc}

theorem edge_reset (h : p.rst = true) : t.edge l p = Tmpc.reset := by
  rw [Tmpc.edge, if_pos h]

theorem edge_accepted (h : p.rst = false) (hv : p.cmdValid = true) : t.edge l p = t.commit (evalCmd l p.cmd) := by
  simp only [Tmpc.edge, h, hv, Bool.false_eq_true, if_false, if_true]

theorem edge_idle (h : p.rst = false) (hv : p.cmdValid = false) : t.edge l p = t.flagIdle := by
  simp only [Tmpc.edge, h, hv, Bool.false_eq_true, if_false]

end Edge

/-! ## Which edge, which command -/

theorem step_edge {s : State} {p : Pins} {rest : List Turn} (h : s.agenda = .edge p :: rest) :
    step s = clockEdge p { s with agenda := rest } := by
  simp only [step, h, takeTurn]

theorem step_presentNext (s : State) (c : Cmd) : step (s.presentNext c) = accept c s := rfl

theorem accept_of_decode {c : Cmd} {i : Instr} (h : decode c = .ok i) (s : State) : accept c s = exec i s := by
  rw [accept, h]

theorem tableWord_toNat (c : Cmd) : tableWord 64 c.toNat = c := by
  rw [tableWord, Nat.mod_eq_of_lt c.isLt, BitVec.ofNat_toNat, BitVec.setWidth_eq]

/-- Settles O27: an accepted edge is `accept` of its word, and `withFetchWord` puts such an edge first. -/
theorem stepRunsTheDecodedCommand : Obligations.StepRunsTheDecodedCommand := by
  refine ⟨fun s c rest i ha hd => ?_, fun s nbits w => step_presentNext s _⟩
  rw [step_edge ha]
  exact accept_of_decode hd _

/-- Settles O28: the table word of an encoding is the encoding, which decodes to its command. -/
theorem presentedEncodingRunsTheCommand : Obligations.PresentedEncodingRunsTheCommand := by
  intro i s
  rw [State.withFetchWord, tableWord_toNat, step_presentNext, accept_of_decode (decode_encode i)]

/-- Settles O39: the step is the idle edge, which writes DONE alone. -/
theorem emptyAgendaIsAnIdleEdge : Obligations.EmptyAgendaIsAnIdleEdge := by
  intro s h
  have hstep : step s = .next s.idleEdge := by simp only [step, h]
  rw [hstep, State.idleEdge_eq]

/-! ## The synchronous block (R115, R116) -/

/-- Settles O29: the two cases of `step_next`. -/
theorem stepIsOneTmpcEdge : Obligations.StepIsOneTmpcEdge := by
  intro s t h
  obtain ⟨hdriven, hfree, -⟩ := step_next h
  cases hp : s.nextPins with
  | some p => exact hdriven p hp
  | none => exact hfree hp

/-- What a step makes of TMPC's registers: the registers, the ROM and the pins determine it. -/
theorem step_tmpc {s t : State} (h : step s = .next t) :
    t.tmpc = s.nextPins.elim s.tmpc (s.tmpc.edge s.params.latRom) := by
  obtain ⟨hdriven, hfree, -⟩ := step_next h
  cases hp : s.nextPins with
  | some p => exact (hdriven p hp).1
  | none => exact hfree hp

/-- Settles O37: two such machines make the same edge, or none. -/
theorem tmpcNeverSeesTheSensor : Obligations.TmpcNeverSeesTheSensor := by
  intro s s' t t' htmpc hrom hpins h h'
  rw [step_tmpc h, step_tmpc h', htmpc, hrom, hpins]

/-- Settles O36: the frame of a step. -/
theorem noStepChangesTheParameters : Obligations.NoStepChangesTheParameters := by
  intro s t h
  obtain ⟨-, -, hparams, -⟩ := step_next h
  exact hparams

/-! ## The invariant -/

theorem coherent_reset : Tmpc.reset.Coherent := by decide

/-- A commit writes ERR and ECODE together, and sets ERRS with ERR, whatever the registers were. -/
theorem coherent_commit {t : Tmpc} (r : Result) : (t.commit r).Coherent := by
  cases r with
  | ok v => exact ⟨Nat.zero_le 8, iff_of_false Bool.false_ne_true (not_not.2 rfl), fun h => nomatch h⟩
  | fail e => exact ⟨e.code_range.2, iff_of_true rfl e.code_ne_zero, fun _ => rfl⟩

theorem coherent_edge {t : Tmpc} (h : t.Coherent) (l : LatRom) (p : Pins) : (t.edge l p).Coherent := by
  unfold Tmpc.edge
  split
  · exact coherent_reset
  · split
    · exact coherent_commit _
    · exact h

/-- Settles O30: every edge keeps the registers coherent, and no step writes DEVICE_ID. -/
theorem everyStepKeepsTheInvariant : Obligations.EveryStepKeepsTheInvariant := by
  rintro s t ⟨hcoh, hid⟩ h
  obtain ⟨hdriven, hfree, -, -, hid'⟩ := step_next h
  refine ⟨?_, hid'.trans hid⟩
  cases hp : s.nextPins with
  | some p => rw [(hdriven p hp).1]; exact coherent_edge hcoh _ p
  | none => rwa [hfree hp]

/-- Settles O31: the registers after a reset are coherent. -/
theorem resetMeetsTheInvariant : Obligations.ResetMeetsTheInvariant := ⟨coherent_reset, rfl⟩

/-- Settles O40: the fields of a closed state. -/
theorem resetState : Obligations.ResetState := ⟨rfl, rfl, rfl, rfl⟩

/-! ## Registers at each kind of edge -/

theorem nextIsReset_iff {s : State} : s.nextIsReset = true ↔ ∃ p, s.nextPins = some p ∧ p.rst = true := by
  unfold State.nextIsReset
  cases s.nextPins <;> simp

/-- What a step that is no reset edge does to TMPC: a commit, an idle edge or nothing. -/
theorem step_tmpc_cases {s t : State} (h : step s = .next t) (hr : s.nextIsReset = false) :
    (∃ c, s.nextPins = some ⟨false, true, c⟩ ∧ t.tmpc = s.tmpc.commit (evalCmd s.params.latRom c)) ∨
      t.tmpc = s.tmpc.flagIdle ∨ t.tmpc = s.tmpc := by
  have ht := step_tmpc h
  cases hp : s.nextPins with
  | none => exact .inr (.inr (by rwa [hp] at ht))
  | some p =>
    obtain ⟨rst, valid, c⟩ := p
    rw [hp] at ht
    rw [State.nextIsReset, hp] at hr
    obtain rfl : rst = false := hr
    cases valid with
    | true => exact .inl ⟨c, rfl, ht.trans (edge_accepted rfl rfl)⟩
    | false => exact .inr (.inl (ht.trans (edge_idle rfl rfl)))

theorem step_tmpc_of_reset {s t : State} (h : step s = .next t) (hr : s.nextIsReset = true) : t.tmpc = Tmpc.reset := by
  obtain ⟨p, hp, hrst⟩ := nextIsReset_iff.1 hr
  rw [step_tmpc h, hp, Option.elim_some, edge_reset hrst]

/-- Settles O32: a reset edge does not look at the registers. -/
theorem resetEdgeStartsFromAnyState : Obligations.ResetEdgeStartsFromAnyState := by
  intro s t hr h
  rw [step_tmpc_of_reset h hr]
  exact ⟨rfl, coherent_reset⟩

/-- Settles O33: by the kind of edge, and for an accepted one by the result. -/
theorem flagsFollowTheEdges : Obligations.FlagsFollowTheEdges := by
  intro s t p h hp
  have ht : t.tmpc = s.tmpc.edge s.params.latRom p := by rw [step_tmpc h, hp, Option.elim_some]
  refine ⟨fun hr => ?reset, fun hr hv => ⟨fun v hok => ?success, fun e hfail => ?failure⟩, fun hr hv => ?idle⟩
  case reset =>
    rw [ht, edge_reset hr]
    exact ⟨rfl, rfl, rfl, rfl⟩
  case success =>
    rw [ht, edge_accepted hr hv, hok]
    exact ⟨rfl, rfl, rfl, rfl⟩
  case failure =>
    rw [ht, edge_accepted hr hv, hfail]
    exact ⟨rfl, rfl, e.code_range.1, e.code_range.2, rfl, rfl⟩
  case idle =>
    rw [ht, edge_idle hr hv]
    exact ⟨rfl, rfl, rfl, rfl⟩

theorem commit_errs_of_errs {t : Tmpc} (h : t.errs = true) (r : Result) : (t.commit r).errs = true := by
  cases r with
  | ok v => exact h
  | fail e => rfl

/-- Settles O34: neither a commit nor an idle edge clears ERRS. -/
theorem stickyErrorFlagOnlyResetClears : Obligations.StickyErrorFlagOnlyResetClears := by
  intro s t h hs hr
  obtain ⟨c, -, ht⟩ | ht | ht := step_tmpc_cases h hr <;> rw [ht]
  · exact commit_errs_of_errs hs _
  · exact hs
  · exact hs

/-- Settles O35: of the ways a step changes TMPC, only a reset and the commit of a success write RES. -/
theorem resultRegisterWrittenOnlyBySuccess : Obligations.ResultRegisterWrittenOnlyBySuccess := by
  intro s t h hres
  cases hr : s.nextIsReset with
  | true => exact .inl ⟨rfl, by rw [step_tmpc_of_reset h hr]; rfl⟩
  | false =>
    obtain ⟨c, hp, ht⟩ | ht | ht := step_tmpc_cases h hr <;> rw [ht] at hres ⊢
    · cases he : evalCmd s.params.latRom c with
      | ok v => exact .inr ⟨c, v, hp, he, rfl⟩
      | fail e => rw [he] at hres; exact absurd rfl hres
    · exact absurd rfl hres
    · exact absurd rfl hres

/-! ## What stops the machine -/

/-- Settles O38: a step without a transaction has a next state, and one with a transaction has it exactly when the
Sensor answers. -/
theorem onlyBusTransactionsStop : Obligations.OnlyBusTransactionsStop := by
  intro s
  cases hn : s.nextTx with
  | none =>
    obtain ⟨t, ht⟩ := step_of_no_nextTx hn
    simp [ht]
  | some txd =>
    obtain ⟨tx, d⟩ := txd
    obtain ⟨k, hk⟩ := step_of_nextTx hn
    rw [hk, onAnswer_stops_iff]
    constructor
    · exact fun h => ⟨tx, d, rfl, h⟩
    · rintro ⟨tx', d', heq, h⟩
      cases heq
      exact h

end Sys2Proof.Machine

/-! # The Sensor: the wire, reads, writes and its own steps

A read or a write that completes is one of the steps `step_readReg` and `step_writeReg`, so each claim is about the
register file: which bits `select` takes from the draw, and which a write or a read keeps. -/

namespace Sys2Proof.Machine

/-- Settles O41: the value of the two bytes, and the round trip of the wire. -/
theorem wireIsBigEndian : Obligations.WireIsBigEndian :=
  ⟨wireWord_toNat, fun v => ⟨_, _, rfl, rfl, rfl, wireWord_wireBytes v⟩⟩

/-! ## CONFIG reads (R50) -/

/-- CONFIG after a read is the word read without its alert flags. -/
theorem readReg_config_snd (sn draw : Sensor) :
    (sn.readReg .config draw).2 = { sn with config := (sn.readReg .config draw).1 &&& 0x3FFF } := rfl

/-- Outside the drawn bits the word read is CONFIG. -/
theorem readReg_config_and {k : Half} (hk : k &&& 0x3003 = 0) (sn draw : Sensor) :
    (sn.readReg .config draw).1 &&& k = sn.config &&& k :=
  select_and_of_disjoint readDrawMask k draw.config sn.config hk

/-- The word read, bit by bit. -/
theorem readReg_config_getLsbD (sn draw : Sensor) (k : Nat) :
    (sn.readReg .config draw).1.getLsbD k =
      if readDrawMask.getLsbD k then draw.config.getLsbD k else sn.config.getLsbD k :=
  select_getLsbD _ _ _ k

theorem readReg_of_ne_config {r : SensorReg} (h : r ≠ .config) (sn draw : Sensor) :
    sn.readReg r draw = (sn.get r, sn) := by
  cases r with
  | config => exact absurd rfl h
  | _ => rfl

/-- Settles O42: the read as a step, and the bits of the word from the draw and from CONFIG. -/
theorem configReadConsumesTheAlerts : Obligations.ConfigReadConsumesTheAlerts := by
  intro s d rest ops hm ha ht hd
  exact ⟨_, step_readReg hm ha ht hd, readReg_config_and (by decide) _ _, select_and_mask _ _ _⟩

/-- Settles O43: the second read finds the alert bits that the first one cleared. -/
theorem secondConfigReadShowsNoAlert : Obligations.SecondConfigReadShowsNoAlert := by
  intro s d d' rest ops hm ha ht hd hd'
  refine ⟨_, _, step_readReg hm ha ht hd, step_readReg hm rfl rfl hd', readReg_config_and (by decide) _ _, ?_⟩
  rw [readReg_config_and (by decide), readReg_config_snd, BitVec.and_assoc]
  exact BitVec.and_zero

/-- Settles O44: the read as a step, and the Sensor as it was. -/
theorem otherReadsHaveNoSideEffect : Obligations.OtherReadsHaveNoSideEffect := by
  intro s r d rest ops hm ha ht hr hd
  rw [step_readReg hm ha ht hd, readReg_of_ne_config hr]

/-! ## CONFIG writes (R53, R113) -/

/-- The mode fields lie under the mode mask. -/
theorem decodeConfig_select_modeMask (v b : Half) :
    (decodeConfig (select modeMask v b)).mod = (decodeConfig v).mod ∧
      (decodeConfig (select modeMask v b)).conv = (decodeConfig v).conv ∧
      (decodeConfig (select modeMask v b)).avg = (decodeConfig v).avg ∧
      (decodeConfig (select modeMask v b)).tna = (decodeConfig v).tna ∧
      (decodeConfig (select modeMask v b)).pol = (decodeConfig v).pol ∧
      (decodeConfig (select modeMask v b)).dralert = (decodeConfig v).dralert := by
  refine ⟨select_extract _ _ _ _ _ (by decide), select_extract _ _ _ _ _ (by decide),
    select_extract _ _ _ _ _ (by decide), ?_, ?_, ?_⟩ <;>
    exact (select_getLsbD modeMask v b _).trans (if_pos (by decide))

/-- Settles O45: the write as a step takes the mode fields from the word and every other bit from the draw. -/
theorem configWriteSetsTheModeFields : Obligations.ConfigWriteSetsTheModeFields := by
  intro s v d rest ops hm ha ht hd hv
  obtain ⟨hmod, hconv, havg, htna, hpol, hdralert⟩ := decodeConfig_select_modeMask v d.regs.config
  refine ⟨select modeMask v d.regs.config, ?_, hmod, hconv, havg, htna, hpol, hdralert,
    select_and_of_disjoint _ _ _ _ (by decide)⟩
  rw [step_writeReg hm ha ht hd, writeReg_config_plain _ _ _ hv]

/-- Settles O46: the write as a step is a soft reset. -/
theorem softResetRestoresTheDefaults : Obligations.SoftResetRestoresTheDefaults := by
  intro s v d rest ops hm ha ht hd hv
  have hstep := step_writeReg hm ha ht hd
  rw [writeReg_config_soft _ _ _ hv] at hstep
  exact ⟨_, hstep, rfl, rfl, select_and_mask _ _ _, rfl, rfl, rfl, rfl⟩

/-! ## Steps of the Sensor (R52) -/

theorem step_sensor {s : State} {e : SensorEvent} {rest : List Turn} (h : s.agenda = .sensor e :: rest) :
    step s = .next { s with agenda := rest, sensor := s.sensor.event e } := by
  simp only [step, h, takeTurn]

/-- Setting the one bit `k` of a word. -/
theorem getLsbD_or_twoPow (c : Half) {n : Nat} (hn : n < 16) (k : Nat) :
    (c ||| BitVec.twoPow 16 n).getLsbD k = if k = n then true else c.getLsbD k := by
  rw [BitVec.getLsbD_or, BitVec.getLsbD_twoPow]
  by_cases hk : k = n
  · simp [hk, hn]
  · simp [hk, Ne.symm hk]

/-- Replacing the one bit `n` of a word. -/
theorem getLsbD_select_twoPow (c : Half) (b : Bool) {n : Nat} (hn : n < 16) (k : Nat) :
    (select (BitVec.twoPow 16 n) (if b then BitVec.twoPow 16 n else 0) c).getLsbD k =
      if k = n then b else c.getLsbD k := by
  rw [select_getLsbD, BitVec.getLsbD_twoPow]
  by_cases hk : k = n
  · cases b <;> simp [hk, hn]
  · simp [hk, Ne.symm hk]

/-- An event that is no TEMP update writes CONFIG alone. -/
theorem event_config_only {e : SensorEvent} (h : ∀ v, e ≠ .temp v) (sn : Sensor) :
    sn.event e = { sn with config := (sn.event e).config } := by
  cases e with
  | temp v => exact absurd rfl (h v)
  | _ => rfl

/-- Settles O47: the event as a step, and of CONFIG the one bit it names. -/
theorem sensorStepsChangeOnlyWhatTheyName : Obligations.SensorStepsChangeOnlyWhatTheyName := by
  intro s rest e ha
  refine ⟨s.sensor.event e, step_sensor ha, ?_, fun he => ⟨event_config_only he _, fun k _ => ?_⟩⟩
  · rintro v rfl
    rfl
  · cases e with
    | highAlert => exact getLsbD_or_twoPow _ (n := 15) (by decide) k
    | lowAlert => exact getLsbD_or_twoPow _ (n := 14) (by decide) k
    | dataReady b => exact getLsbD_select_twoPow _ b (n := 13) (by decide) k
    | eepromBusy b => exact getLsbD_select_twoPow _ b (n := 12) (by decide) k
    | temp v => exact absurd rfl (he v)

/-! ## Transactions without an answer (R47, R44) -/

/-- This Host's `bus` step and another Host's turn make the transaction they name. -/
theorem nextTx_of_bus {s : State} {d : Draw} {rest : List Turn} {tx : BusTx}
    (h : (s.agenda = .host d :: rest ∧ ∃ ops, s.host.todo = .bus tx :: ops) ∨ s.agenda = .otherHost tx d :: rest) :
    s.nextTx = some (tx, d) := by
  obtain ⟨ha, ops, ht⟩ | ha := h
  · simp only [State.nextTx, ha, ht]
  · simp only [State.nextTx, ha]

/-- Settles O48: the step goes on as the answer lets it, and there is none. -/
theorem illFormedTransactionsStop : Obligations.IllFormedTransactionsStop := by
  intro s d rest tx h
  obtain ⟨k, hk⟩ := step_of_nextTx (nextTx_of_bus h)
  rw [hk]
  refine ⟨fun hlen => ?_, fun hlen hout => ?_, fun hlen hin hno => ?_⟩
  · rw [transact_length hlen, onAnswer]
  · rw [transact_outside hlen hout, onAnswer]
  · rw [transact_unnamed hlen hin hno, onAnswer]

end Sys2Proof.Machine

/-! # The Host's sequences (R88, R114, R123)

A sequence is run turn by turn.  A turn that presents a command commits what the command returns, on the word last read
where the sequence says so; the turns of a transaction are those of the Sensor.  What CONFIG holds afterwards is said for
the mode bits 2 to 11, which no read changes and a write that is no soft reset copies. -/

namespace Sys2Proof.Machine

/-! ## Presenting a command -/

@[simp] theorem evalCmd_encode (l : LatRom) (i : Instr) : evalCmd l (encode i) = evalInstr l i := by
  rw [evalCmd, decode_encode]

theorem edge_encode (l : LatRom) (i : Instr) (t : Tmpc) : t.edge l ⟨false, true, encode i⟩ = t.commit (evalInstr l i) :=
  (edge_accepted rfl rfl).trans (congrArg t.commit (evalCmd_encode l i))

section Present

variable {s : State} {d : Draw} {rest : List Turn} {ops : List HostOp} {i : Instr} {r : Result}

/-- Presenting a command, as a step. -/
theorem step_present_encode (ha : s.agenda = .host d :: rest) (ht : s.host.todo = .present (encode i) :: ops)
    (hr : evalInstr s.params.latRom i = r) :
    step s = .next { s with
      agenda := rest, tmpc := s.tmpc.commit r, host := { s.host with todo := ops, now := s.host.now + d.elapsed } } := by
  rw [step_present ha ht, edge_encode, hr]

/-- Presenting a command whose word becomes that of `i` when the word last read is put into A, as a step. -/
theorem step_presentOnWord_encode {c : Cmd} (ha : s.agenda = .host d :: rest)
    (ht : s.host.todo = .presentOnWord c :: ops) (hc : onWord c s.host.w = encode i)
    (hr : evalInstr s.params.latRom i = r) :
    step s = .next { s with
      agenda := rest, tmpc := s.tmpc.commit r, host := { s.host with todo := ops, now := s.host.now + d.elapsed } } := by
  rw [step_presentOnWord ha ht, hc, edge_encode, hr]

end Present

/-! ## The word of a sequence's command on the word read -/

/-- The word read takes the place of a container or count of 0. -/
theorem onWord_enc (op : BitVec 4) (p : BitVec 12) (b h c w : Half) :
    onWord (enc op p b (h ++ c)) w = enc op p b (h ++ w) := by
  rw [onWord, opField_enc, pField_enc, bField_enc, aField_enc, aHi_append]

theorem onWord_getf (f : BitVec 4) (w : Half) : onWord (encode (.getf 0 f 0 0 0)) w = encode (.getf w f 0 0 0) :=
  onWord_enc _ _ _ _ _ _

theorem onWord_setf (f : BitVec 4) (v w : Half) : onWord (encode (.setf 0 v f 0 0)) w = encode (.setf w v f 0 0) :=
  onWord_enc _ _ _ _ _ _

theorem onWord_cnt2c (w : Half) : onWord (encode (.cnt2c 0 0 0 0)) w = encode (.cnt2c w 0 0 0) :=
  onWord_enc _ _ _ _ _ _

theorem onWord_cnt2f (w : Half) : onWord (encode (.cnt2f 0 0 0 0)) w = encode (.cnt2f w 0 0 0) :=
  onWord_enc _ _ _ _ _ _

theorem evalInstr_getf_field {f : BitVec 4} {row : Field} (h : fieldTable f.toNat = some row) (l : LatRom) (c : Half) :
    evalInstr l (.getf c f 0 0 0) = .ok (zext32 (extractField c row.msb row.width)) :=
  (evalInstr_getf l c f).trans (getfResult_some c h)

theorem evalInstr_setf_field {f : BitVec 4} {row : Field} {v : Half} (h : fieldTable f.toNat = some row)
    (hw : row.writable = true) (hv : v.toNat < 2 ^ row.width) (l : LatRom) (c : Half) :
    evalInstr l (.setf c v f 0 0) = .ok (zext32 (insertField c row.msb row.width v.toNat)) :=
  (evalInstr_setf l c v f).trans ((setfResult_writable c v h hw).trans (insertChecked_ok c _ hv))

/-! ## Runs, step by step -/

/-- `n` steps lead from `s` to `t`, however many follow. -/
def Reaches (n : Nat) (s t : State) : Prop := ∀ k, core.run (k + n) s = core.run k t

theorem Reaches.refl (s : State) : Reaches 0 s s := fun _ => rfl

/-- One more step at the end. -/
theorem Reaches.andThen {n : Nat} {s t u : State} (h : Reaches n s t) (ht : step t = .next u) : Reaches (n + 1) s u := by
  intro k
  calc core.run (k + (n + 1)) s
    _ = core.run (k + 1 + n) s := by rw [Nat.add_right_comm, Nat.add_assoc]
    _ = core.run (k + 1) t := h (k + 1)
    _ = core.run k u := core_run_succ ht

theorem Reaches.of_step {s t : State} (h : step s = .next t) : Reaches 1 s t := (Reaches.refl s).andThen h

theorem Reaches.trans {m n : Nat} {s t u : State} (h : Reaches m s t) (h' : Reaches n t u) : Reaches (n + m) s u := by
  intro k
  rw [← Nat.add_assoc, h, h']

theorem Reaches.run {n : Nat} {s t : State} (h : Reaches n s t) : core.run n s = .next t := by
  have h0 := h 0
  rwa [Nat.zero_add] at h0

/-! ## Getters -/

/-- Settles O55: the CONFIG read and GETF on its word, whose field is the member of the parallel decoder. -/
theorem getterReadsItsFieldAndConsumesTheAlerts : Obligations.GetterReadsItsFieldAndConsumesTheAlerts := by
  intro s f d1 d2 rest ops hm hf hd1 ha ht
  obtain ⟨row, hrow⟩ := exists_fieldTable_eq_some hf
  have h1 := step_readReg hm ha ht hd1
  refine ⟨_, ((Reaches.of_step h1).andThen
      (step_presentOnWord_encode rfl rfl (onWord_getf f _) (evalInstr_getf_field hrow _ _))).run,
    readReg_config_and (by decide) _ _, ?_, rfl, rfl, rfl, rfl⟩
  rw [member_eq_extractField hrow]
  exact congrArg some (zext32_toNat _).symm

/-- A read of a register other than CONFIG and a command on the word read that succeeds. -/
theorem run_countGetter {s : State} {r : SensorReg} {c : Cmd} {i : Instr} {v : Word} {d1 d2 : Draw} {rest : List Turn}
    {ops : List HostOp} (hm : s.AddrMapOk) (hr : r ≠ .config) (hd1 : d1.fate = .completes)
    (ha : s.agenda = .host d1 :: .host d2 :: rest) (ht : s.host.todo = .readReg r :: .presentOnWord c :: ops)
    (hc : onWord c (s.sensor.get r) = encode i) (hv : Succeeds i s v) :
    ∃ t, core.run 2 s = .next t ∧ t.tmpc = s.tmpc.succeed v ∧ t.sensor = s.sensor ∧ t.host.todo = ops ∧
      t.agenda = rest := by
  have hread := step_readReg hm ha ht hd1
  rw [readReg_of_ne_config hr] at hread
  have heval := eval_of_succeeds hv
  exact ⟨_, ((Reaches.of_step hread).andThen (step_presentOnWord_encode rfl rfl hc heval)).run, rfl, rfl, rfl, rfl⟩

/-- Settles O52: the conversion of the register's content, by what each command returns. -/
theorem temperatureGetterConvertsTheCount : Obligations.TemperatureGetterConvertsTheCount := by
  intro s r d1 d2 rest ops hm hr hd1 ha
  refine ⟨fun ht => ?celsius, fun ht => ?fahrenheit⟩
  case celsius =>
    obtain ⟨v, hv⟩ := cnt2c_completes (s.sensor.get r) s
    obtain ⟨t, hrun, htmpc, hsensor, htodo, hagenda⟩ := run_countGetter hm hr hd1 ha ht (onWord_cnt2c _) hv
    refine ⟨t, hrun, ?_, hsensor, by rw [htmpc]; rfl, htodo, hagenda⟩
    rw [htmpc]
    exact succeeds_cnt2c_iff.1 hv
  case fahrenheit =>
    obtain ⟨v, hv⟩ := cnt2f_completes (s.sensor.get r) s
    obtain ⟨t, hrun, htmpc, hsensor, htodo, hagenda⟩ := run_countGetter hm hr hd1 ha ht (onWord_cnt2f _) hv
    obtain ⟨hlo, hhi⟩ := succeeds_cnt2f_iff.1 hv
    refine ⟨t, hrun, ?_, ?_, hsensor, by rw [htmpc]; rfl, htodo, hagenda⟩ <;> rw [htmpc]
    · exact hlo
    · exact hhi

/-! ## Limit and offset setters -/

/-- Settles O50: C2CNT fails with RANGE, which keeps RES, and the write is skipped. -/
theorem failedConversionIsNotWritten : Obligations.FailedConversionIsNotWritten := by
  intro s r cin d1 d2 rest ops hcin ha ht
  obtain ⟨e, hcode, he⟩ := failsWith_iff_eval.1 (c2cnt_failsWith_range hcin s)
  have h1 := step_present_encode ha ht he
  exact ⟨_, ((Reaches.of_step h1).andThen (step_writeResult_skip rfl rfl rfl)).run, rfl, rfl, rfl, hcode, rfl⟩

/-- The low half of a word that holds a count is that count. -/
theorem toInt_aLo {v : Word} (h1 : -32768 ≤ v.toInt) (h2 : v.toInt ≤ 32767) : (aLo v).toInt = v.toInt := by
  have hlow : (aLo v).toNat = v.toNat % 65536 := by
    rw [aLo, BitVec.extractLsb'_toNat, Nat.shiftRight_zero]
  have hv := v.isLt
  rw [BitVec.toInt_eq_toNat_cond] at h1 h2 ⊢
  rw [BitVec.toInt_eq_toNat_cond, hlow]
  split_ifs at * <;> omega

/-- A write of a limit or of TEMP_OFFSET leaves the word in the register, and every other register as it was. -/
theorem writeReg_count {r : SensorReg} (h : r = .tHighLimit ∨ r = .tLowLimit ∨ r = .tempOffset) (sn : Sensor)
    (p : Params) (v : Half) (draw : Sensor) :
    (sn.writeReg p r v draw).get r = v ∧ ∀ r', r' ≠ r → (sn.writeReg p r v draw).get r' = sn.get r' := by
  obtain rfl | rfl | rfl := h <;> refine ⟨rfl, fun r' hne => ?_⟩
  · cases r' with
    | tHighLimit => exact absurd rfl hne
    | _ => rfl
  · cases r' with
    | tLowLimit => exact absurd rfl hne
    | _ => rfl
  · cases r' with
    | tempOffset => exact absurd rfl hne
    | _ => rfl

/-- Settles O56: C2CNT gives the nearest count, and the write puts RES[15:0], the count, into the register. -/
theorem countSetterWritesTheRoundedCount : Obligations.CountSetterWritesTheRoundedCount := by
  intro s cin d1 d2 rest ops r hm hr ⟨hlo, hhi⟩ hd2 ha ht
  obtain ⟨v, hv⟩ := c2cnt_completes hlo hhi s
  obtain ⟨hv1, hv2, herr1, herr2, -⟩ := succeeds_c2cnt_iff.1 hv
  obtain ⟨hget, hother⟩ := writeReg_count hr s.sensor s.params (aLo v) d2.regs
  have h1 := step_present_encode ha ht (eval_of_succeeds hv)
  have hcount := (congrArg BitVec.toInt hget).trans (toInt_aLo hv1 hv2)
  refine ⟨_, ((Reaches.of_step h1).andThen (step_writeResult hm rfl rfl hd2 rfl)).run, hcount.symm, ?_, ?_,
    hother, rfl, rfl, rfl⟩
  · exact hcount ▸ herr1
  · exact hcount ▸ herr2

end Sys2Proof.Machine

/-! # Setters of CONFIG: read, replace a field, write (R88, R114, R123)

Between the word read and CONFIG after the write only the mode bits 2 to 11 count: a read does not change them, SETF
replaces those of its field, and a write with bit 1 clear copies them. -/

namespace Sys2Proof.Machine

/-! ## Mode bits -/

/-- The bits of the mode fields MOD, CONV, AVG, TNA, POL and DRALERT (R29). -/
abbrev IsModeBit (k : Nat) : Prop := 2 ≤ k ∧ k ≤ 11

theorem modeMask_of_isModeBit {k : Nat} (h : IsModeBit k) : modeMask.getLsbD k = true := by
  obtain ⟨h2, h11⟩ := h
  interval_cases k <;> rfl

theorem readDrawMask_of_isModeBit {k : Nat} (h : IsModeBit k) : readDrawMask.getLsbD k = false := by
  obtain ⟨h2, h11⟩ := h
  interval_cases k <;> rfl

/-- A CONFIG read shows the mode bits. -/
theorem readReg_config_modeBit {k : Nat} (h : IsModeBit k) (sn draw : Sensor) :
    (sn.readReg .config draw).1.getLsbD k = sn.config.getLsbD k := by
  rw [readReg_config_getLsbD, readDrawMask_of_isModeBit h, if_neg Bool.false_ne_true]

/-- A CONFIG read keeps the mode bits. -/
theorem readReg_config_keeps_modeBit {k : Nat} (h : IsModeBit k) (sn draw : Sensor) :
    (sn.readReg .config draw).2.config.getLsbD k = sn.config.getLsbD k := by
  have hmask : (0x3FFF : Half).getLsbD k = true := by
    obtain ⟨h2, h11⟩ := h
    interval_cases k <;> rfl
  rw [readReg_config_snd, BitVec.getLsbD_and, readReg_config_modeBit h, hmask, Bool.and_true]

/-- Bit 1 of the word read is drawn. -/
theorem readReg_config_bit_one (sn draw : Sensor) :
    (sn.readReg .config draw).1.getLsbD 1 = draw.config.getLsbD 1 :=
  (readReg_config_getLsbD sn draw 1).trans (if_pos rfl)

theorem select_modeMask_modeBit {k : Nat} (h : IsModeBit k) (v b : Half) :
    (select modeMask v b).getLsbD k = v.getLsbD k := by
  rw [select_getLsbD, modeMask_of_isModeBit h, if_pos rfl]

/-! ## Mode fields -/

theorem modeField_range {fid : Nat} {row : Field} (h4 : 4 ≤ fid) (h9 : fid ≤ 9) (h : fieldTable fid = some row) :
    2 ≤ row.msb + 1 - row.width ∧ row.msb ≤ 11 := by
  interval_cases fid <;> cases h <;> decide

/-- A field with a smaller id lies above. -/
theorem modeField_above {fid fid' : Nat} {row row' : Field} (h4 : 4 ≤ fid) (hlt : fid < fid') (h9' : fid' ≤ 9)
    (h : fieldTable fid = some row) (h' : fieldTable fid' = some row') : row'.msb < row.msb + 1 - row.width := by
  have h9 := hlt.le.trans h9'
  interval_cases fid <;> cases h <;> interval_cases fid' <;> cases h' <;> decide

/-- Two different mode fields have no bit in common. -/
theorem modeField_disjoint {fid fid' : Nat} {row row' : Field} (h4 : 4 ≤ fid) (h9 : fid ≤ 9) (h4' : 4 ≤ fid')
    (h9' : fid' ≤ 9) (hne : fid ≠ fid') (h : fieldTable fid = some row) (h' : fieldTable fid' = some row') {k : Nat}
    (hk : row.msb + 1 - row.width ≤ k ∧ k ≤ row.msb) : ¬(row'.msb + 1 - row'.width ≤ k ∧ k ≤ row'.msb) := by
  obtain hlt | hlt := Nat.lt_or_gt_of_ne hne
  · have := modeField_above h4 hlt h9' h h'
    omega
  · have := modeField_above h4' hlt h9 h' h
    omega

/-- The member of a mode field depends on the mode bits alone. -/
theorem member_congr_modeBits {fid : Nat} {row : Field} (h4 : 4 ≤ fid) (h9 : fid ≤ 9) (h : fieldTable fid = some row)
    {c c' : Half} (hc : ∀ k, IsModeBit k → c.getLsbD k = c'.getLsbD k) :
    (decodeConfig c).member fid = (decodeConfig c').member fid :=
  member_congr h fun k hlo hhi =>
    have hrange := modeField_range h4 h9 h
    hc k ⟨hrange.1.trans hlo, hhi.trans hrange.2⟩

/-- Replacing a field keeps every other bit. -/
theorem insertField_other_bit {fid : Nat} {row : Field} {v : Nat} (h : fieldTable fid = some row)
    (hv : v < 2 ^ row.width) (w : Half) {k : Nat} (hk : ¬(row.msb + 1 - row.width ≤ k ∧ k ≤ row.msb)) :
    (insertField w row.msb row.width v).getLsbD k = w.getLsbD k := by
  obtain ⟨-, hwidth, hmsb⟩ := fieldTable_legal h
  rw [getLsbD_insertField hwidth hmsb hv, if_neg hk]

/-- Replacing a mode field keeps bit 1, which would start a soft reset. -/
theorem insertField_bit_one {fid : Nat} {row : Field} {v : Nat} (h4 : 4 ≤ fid) (h9 : fid ≤ 9)
    (h : fieldTable fid = some row) (hv : v < 2 ^ row.width) (w : Half) :
    (insertField w row.msb row.width v).getLsbD 1 = w.getLsbD 1 := by
  have hrange := modeField_range h4 h9 h
  exact insertField_other_bit h hv w (by omega)

/-- CONFIG after a write that is no soft reset. -/
theorem member_select_insertField {fid : Nat} {row : Field} {v : Nat} (h4 : 4 ≤ fid) (h9 : fid ≤ 9)
    (h : fieldTable fid = some row) (hv : v < 2 ^ row.width) (w b : Half) :
    (decodeConfig (select modeMask (insertField w row.msb row.width v) b)).member fid = some v :=
  (member_congr_modeBits h4 h9 h fun _ hk => select_modeMask_modeBit hk _ b).trans (member_insertField h hv w)

/-! ## The turns of a setter -/

/-- The word a setter writes: the word read with the field replaced. -/
def setterWord (sn : Sensor) (d : Draw) (row : Field) (v : Half) : Half :=
  insertField (sn.readReg .config d.regs).1 row.msb row.width v.toNat

/-- A SETF on the word last read, as a step. -/
theorem step_setf {s : State} {f : BitVec 4} {row : Field} {v : Half} {d : Draw} {rest : List Turn} {ops : List HostOp}
    (hrow : fieldTable f.toNat = some row) (hw : row.writable = true) (hv : v.toNat < 2 ^ row.width)
    (ha : s.agenda = .host d :: rest) (ht : s.host.todo = .presentOnWord (encode (.setf 0 v f 0 0)) :: ops) :
    step s = .next { s with
      agenda := rest, tmpc := s.tmpc.succeed (zext32 (insertField s.host.w row.msb row.width v.toNat)),
      host := { s.host with todo := ops, now := s.host.now + d.elapsed } } :=
  step_presentOnWord_encode ha ht (onWord_setf f v _) (evalInstr_setf_field hrow hw hv _ _)

/-- A write of the word that RES holds, as a step. -/
theorem step_writeResult_word {s : State} {d : Draw} {rest : List Turn} {r : SensorReg} {ops : List HostOp} {x : Half}
    (hm : s.AddrMapOk) (ha : s.agenda = .host d :: rest) (ht : s.host.todo = .writeResult r :: ops)
    (hd : d.fate = .completes) (he : s.tmpc.err = false) (hx : s.tmpc.res = zext32 x) :
    step s = .next { s with
      agenda := rest, sensor := s.sensor.writeReg s.params r x d.regs,
      host := { s.host with todo := ops, now := s.host.now + d.elapsed } } := by
  rw [step_writeResult hm ha ht hd he, hx, aLo_zext32]

/-- The three turns of a setter: SETF succeeds, and the word it gives is written. -/
theorem run_setter {s : State} {f : BitVec 4} {row : Field} {v : Half} {d1 d2 d3 : Draw} {rest : List Turn}
    {ops : List HostOp} (hm : s.AddrMapOk) (hrow : fieldTable f.toNat = some row) (hw : row.writable = true)
    (hv : v.toNat < 2 ^ row.width) (hd1 : d1.fate = .completes) (hd3 : d3.fate = .completes)
    (ha : s.agenda = .host d1 :: .host d2 :: .host d3 :: rest) (ht : s.host.todo = setterSeq f v ++ ops) :
    ∃ t, Reaches 3 s t ∧ t.tmpc = s.tmpc.succeed (zext32 (setterWord s.sensor d1 row v)) ∧
      t.sensor =
        (s.sensor.readReg .config d1.regs).2.writeReg s.params .config (setterWord s.sensor d1 row v) d3.regs ∧
      t.host.todo = ops ∧ t.agenda = rest ∧ t.params = s.params := by
  have hread := Reaches.of_step (step_readReg hm ha ht hd1)
  have hsetf := hread.andThen (step_setf hrow hw hv rfl rfl)
  exact ⟨_, hsetf.andThen (step_writeResult_word hm rfl rfl hd3 rfl rfl), rfl, rfl, rfl, rfl, rfl⟩

/-- The same with a CONFIG read of another Host after this Host's own. -/
theorem run_setter_interleaved {s : State} {f : BitVec 4} {row : Field} {v : Half} {d1 dr2 d2 d3 : Draw}
    {rest : List Turn} {ops : List HostOp} (hm : s.AddrMapOk) (hrow : fieldTable f.toNat = some row)
    (hw : row.writable = true) (hv : v.toNat < 2 ^ row.width) (hd1 : d1.fate = .completes)
    (hdr2 : dr2.fate = .completes) (hd3 : d3.fate = .completes)
    (ha : s.agenda = .host d1 :: .otherHost (.read (regAddr s.params.sensorRegAddr .config) 2) dr2 :: .host d2 ::
      .host d3 :: rest)
    (ht : s.host.todo = setterSeq f v ++ ops) :
    ∃ t, Reaches 4 s t ∧
      t.sensor = ((s.sensor.readReg .config d1.regs).2.readReg .config dr2.regs).2.writeReg s.params .config
        (setterWord s.sensor d1 row v) d3.regs ∧
      t.agenda = rest ∧ t.params = s.params := by
  have hread := Reaches.of_step (step_readReg hm ha ht hd1)
  have hread2 := hread.andThen (step_otherRead hm rfl hdr2)
  have hsetf := hread2.andThen (step_setf hrow hw hv rfl rfl)
  exact ⟨_, hsetf.andThen (step_writeResult_word hm rfl rfl hd3 rfl rfl), rfl, rfl, rfl⟩

/-! ## Mode fields after a setter -/

/-- Where the word read shows bit 1 clear, the setter's write is no soft reset. -/
theorem setterWord_bit_one {fid : Nat} {row : Field} {v : Half} {d : Draw} (h4 : 4 ≤ fid) (h9 : fid ≤ 9)
    (h : fieldTable fid = some row) (hv : v.toNat < 2 ^ row.width) (hd : d.regs.config.getLsbD 1 = false) (sn : Sensor) :
    (setterWord sn d row v).getLsbD 1 = false := by
  rw [setterWord, insertField_bit_one h4 h9 h hv, readReg_config_bit_one, hd]

/-- Settles O49: the write is no soft reset, and it copies the mode bits of the word read with the field replaced. -/
theorem setterChangesOneModeField : Obligations.SetterChangesOneModeField := by
  intro s f row v d1 d2 d3 rest ops hm h4 h9 hrow hv hd1 _ hd3 hbit ha ht
  have hw := (writable_iff hrow).2 ⟨h4, h9.trans (by decide)⟩
  obtain ⟨t, hrun, htmpc, hsensor, htodo, hagenda, -⟩ := run_setter hm hrow hw hv hd1 hd3 ha ht
  rw [writeReg_config_plain _ _ _ (setterWord_bit_one h4 h9 hrow hv hbit s.sensor)] at hsensor
  refine ⟨t, _, hrun.run, hsensor, member_select_insertField h4 h9 hrow hv _ _, fun k h2 h11 hout => ?_,
    by rw [htmpc]; rfl, htodo, hagenda⟩
  rw [select_modeMask_modeBit ⟨h2, h11⟩, setterWord, insertField_other_bit hrow hv _ hout,
    readReg_config_modeBit ⟨h2, h11⟩]

/-- Settles O51: the second write copies the mode bits of the word its Host read, which was read before the first write
and so shows the first field as it was at the start. -/
theorem interleavedReadModifyWriteLosesAChange : Obligations.InterleavedReadModifyWriteLosesAChange := by
  intro s f f' row' v v' w2 y d1 dr2 d2 d3 d4 rest ops hm h4 h9 h4' h9' hne hv hrow' hv' hd1 hdr2 hd3 hd4 hbit hbit2
    hw2 hy ha ht
  obtain ⟨row, hrow⟩ := exists_fieldTable_eq_some (h9.trans (by decide))
  have hw := (writable_iff hrow).2 ⟨h4, h9.trans (by decide)⟩
  obtain ⟨t1, hrun, hsensor, hagenda, hparams⟩ := run_setter_interleaved hm hrow hw (hv row hrow) hd1 hdr2 hd3 ha ht
  rw [writeReg_config_plain _ _ _ (setterWord_bit_one h4 h9 hrow (hv row hrow) hbit s.sensor)] at hsensor
  rw [← hparams] at hagenda
  have hm1 : t1.AddrMapOk := by rwa [State.AddrMapOk, hparams]
  have hrun2 := hrun.andThen (step_otherWrite hm1 hagenda hd4)
  have hy1 : y.getLsbD 1 = false := by
    rw [hy, insertField_bit_one h4' h9' hrow' hv', hw2, readReg_config_bit_one, hbit2]
  rw [writeReg_config_plain _ _ _ hy1] at hrun2
  refine ⟨t1, _, hrun.run, hrun2.run, ?new, ?lost, ?other⟩
  case new =>
    rw [hsensor]
    exact member_select_insertField h4 h9 hrow (hv row hrow) _ _
  case other =>
    rw [hy]
    exact member_select_insertField h4' h9' hrow' hv' _ _
  case lost =>
    refine member_congr hrow fun k hlo hhi => ?_
    have hrange := modeField_range h4 h9 hrow
    have hk : IsModeBit k := ⟨hrange.1.trans hlo, hhi.trans hrange.2⟩
    have hout := modeField_disjoint h4 h9 h4' h9' (fun he => hne (BitVec.eq_of_toNat_eq he)) hrow hrow' ⟨hlo, hhi⟩
    rw [select_modeMask_modeBit hk, hy, insertField_other_bit hrow' hv' _ hout, hw2, readReg_config_modeBit hk,
      readReg_config_keeps_modeBit hk]

/-! ## The soft-reset sequence (R114) -/

theorem step_startDeadline {s : State} {d : Draw} {rest : List Turn} {ops : List HostOp}
    (ha : s.agenda = .host d :: rest) (ht : s.host.todo = .startDeadline :: ops) :
    step s = .next { s with
      agenda := rest,
      host := { s.host with
        todo := ops, now := s.host.now + d.elapsed, deadline := s.host.now + d.elapsed + s.params.timeoutMs,
        verdict := .pending } } := by
  rw [step_host ha ht, hostOp]

/-- SET.SOFT_RESET's word has bit 1 set. -/
theorem setterWord_softReset_bit_one (sn : Sensor) (d : Draw) : (setterWord sn d ⟨1, 1, true⟩ 1).getLsbD 1 = true :=
  (getLsbD_insertField (by decide) (by decide) (by decide) _ 1).trans (if_pos (by decide))

/-- Settles O53: the setter of SOFT_RESET writes a word with bit 1 set, and the next turn starts the deadline. -/
theorem softResetSequenceResetsTheSensor : Obligations.SoftResetSequenceResetsTheSensor := by
  intro s d1 d2 d3 d4 rest hm hd1 hd3 ha ht
  obtain ⟨t, hrun, htmpc, hsensor, htodo, hagenda, hparams⟩ :=
    run_setter (f := 10) (row := ⟨1, 1, true⟩) (v := 1) (ops := .startDeadline :: pollSeq) hm rfl rfl (by decide) hd1 hd3
      ha ht
  have hbit := setterWord_softReset_bit_one s.sensor d1
  rw [writeReg_config_soft _ _ _ hbit] at hsensor
  have hstart := step_startDeadline hagenda htodo
  rw [hsensor, htmpc, hparams] at hstart
  exact ⟨_, (hrun.andThen hstart).run, rfl, rfl, select_and_mask _ _ _, rfl, (getLsbD_zext32 _ _).trans hbit, rfl, rfl,
    rfl, rfl⟩

/-! ## The poll (R114) -/

theorem step_pollCheck {s : State} {d : Draw} {rest : List Turn} {ops : List HostOp}
    (ha : s.agenda = .host d :: rest) (ht : s.host.todo = .pollCheck :: ops) :
    step s = .next { s with
      agenda := rest,
      host := pollCheck s.params s.tmpc.res { s.host with todo := ops, now := s.host.now + d.elapsed } } := by
  rw [step_host ha ht, hostOp]

section PollCheck

variable (p : Params) {res : Word} {h : HostAgent}

theorem pollCheck_done (hb : res.getLsbD 0 = false) : pollCheck p res h = { h with verdict := .softResetDone } :=
  if_pos hb

theorem pollCheck_timeout (hb : res.getLsbD 0 = true) (hd : h.deadline ≤ h.now) :
    pollCheck p res h = h.abort .timeoutError := by
  simp only [pollCheck, hb, Bool.true_eq_false, if_false, if_pos hd]

theorem pollCheck_again (hb : res.getLsbD 0 = true) (hd : h.now < h.deadline) :
    pollCheck p res h = { h with now := h.now + p.pollMs, todo := pollSeq ++ h.todo } := by
  simp only [pollCheck, hb, Bool.true_eq_false, if_false, if_neg (Nat.not_le.2 hd)]

theorem pollCheck_keeps : (pollCheck p res h).w = h.w ∧ (pollCheck p res h).deadline = h.deadline := by
  unfold pollCheck
  split
  · exact ⟨rfl, rfl⟩
  · split <;> exact ⟨rfl, rfl⟩

end PollCheck

/-- Settles O54: the three outcomes of the test. -/
theorem pollTestFollowsTheProtocol : Obligations.PollTestFollowsTheProtocol := by
  intro s d rest ops ha ht
  obtain ⟨hw, hdeadline⟩ := pollCheck_keeps s.params (res := s.tmpc.res)
    (h := { s.host with todo := ops, now := s.host.now + d.elapsed })
  refine ⟨_, step_pollCheck ha ht, hw, hdeadline, fun hb => ?done, fun hb hd => ?timeout, fun hb hd => ?again⟩
  case done =>
    rw [pollCheck_done _ hb]
    exact ⟨rfl, rfl⟩
  case timeout =>
    rw [pollCheck_timeout _ hb hd]
    exact ⟨rfl, rfl⟩
  case again =>
    rw [pollCheck_again _ hb hd]
    exact ⟨rfl, rfl, rfl⟩

end Sys2Proof.Machine

/-! # The soft-reset poll ends (R114)

One poll is a CONFIG read, GETF of EEPROM_BUSY and the test.  Either it ends the poll, or the deadline was still ahead
and the clock has moved on by at least POLL_MS; so the distance to the deadline, in poll intervals, bounds the number of
polls.  A Host whose poll has ended has nothing left to do, and its remaining turns are idle edges. -/

namespace Sys2Proof.Machine

/-- The poll has ended, in success or in a timeout at the deadline. -/
def PollEnded (h : HostAgent) : Prop :=
  h.todo = [] ∧ (h.verdict = .softResetDone ∨ h.verdict = .timeoutError ∧ h.deadline ≤ h.now)

/-! ## Turns after the end -/

/-- A turn of a Host that has nothing to do, as a step. -/
theorem step_host_idle {s : State} {d : Draw} {rest : List Turn} (ha : s.agenda = .host d :: rest)
    (ht : s.host.todo = []) :
    step s = .next { s with
      tmpc := s.tmpc.flagIdle, agenda := rest, host := { s.host with now := s.host.now + d.elapsed } } := by
  simp only [step, ha, takeTurn, hostTurn, ht, State.idleEdge]

theorem pollEnded_later {h : HostAgent} (he : PollEnded h) (n : Nat) : PollEnded { h with now := h.now + n } := by
  obtain ⟨htodo, hdone | ⟨htimeout, hle⟩⟩ := he
  · exact ⟨htodo, .inl hdone⟩
  · exact ⟨htodo, .inr ⟨htimeout, hle.trans (Nat.le_add_right _ n)⟩⟩

theorem pollEnded_stays (ds : List Draw) {s : State} (he : PollEnded s.host) (ha : s.agenda = ds.map Turn.host) :
    ∃ t, Reaches ds.length s t ∧ PollEnded t.host := by
  induction ds generalizing s with
  | nil => exact ⟨s, .refl s, he⟩
  | cons d ds ih =>
    have hstep := step_host_idle ha he.1
    obtain ⟨t, ht, hended⟩ := ih (s := { s with
      tmpc := s.tmpc.flagIdle, agenda := ds.map Turn.host, host := { s.host with now := s.host.now + d.elapsed } })
      (pollEnded_later he d.elapsed) rfl
    exact ⟨t, (Reaches.of_step hstep).trans ht, hended⟩

/-! ## One poll -/

/-- What the test of a Host with no further steps decides: the poll has ended, or the deadline is still ahead and the
Host polls again POLL_MS later. -/
theorem pollCheck_cases (p : Params) (res : Word) {h : HostAgent} (ht : h.todo = []) :
    PollEnded (pollCheck p res h) ∨
      h.now < h.deadline ∧ (pollCheck p res h).todo = pollSeq ∧ (pollCheck p res h).now = h.now + p.pollMs := by
  cases hb : res.getLsbD 0 with
  | false =>
    rw [pollCheck_done p hb]
    exact .inl ⟨ht, .inl rfl⟩
  | true =>
    obtain hd | hd := Nat.lt_or_ge h.now h.deadline
    · rw [pollCheck_again p hb hd, ht]
      exact .inr ⟨hd, List.append_nil _, rfl⟩
    · rw [pollCheck_timeout p hb hd]
      exact .inl ⟨rfl, .inr ⟨rfl, hd⟩⟩

/-- The three turns of a poll. -/
theorem run_poll {s : State} {d1 d2 d3 : Draw} {rest : List Turn} (hm : s.AddrMapOk) (hd1 : d1.fate = .completes)
    (ha : s.agenda = .host d1 :: .host d2 :: .host d3 :: rest) (ht : s.host.todo = pollSeq) :
    ∃ t, Reaches 3 s t ∧ t.agenda = rest ∧ t.params = s.params ∧ t.host.deadline = s.host.deadline ∧
      (PollEnded t.host ∨
        s.host.now < s.host.deadline ∧ t.host.todo = pollSeq ∧ s.host.now + s.params.pollMs ≤ t.host.now) := by
  have hread := Reaches.of_step (step_readReg hm ha ht hd1)
  have hgetf := hread.andThen (step_presentOnWord_encode rfl rfl (onWord_getf 3 _) rfl)
  refine ⟨_, hgetf.andThen (step_pollCheck rfl rfl), rfl, rfl, (pollCheck_keeps _).2, ?_⟩
  refine (pollCheck_cases _ _ rfl).imp_right ?_
  rintro ⟨hlt, htodo, hnow⟩
  dsimp only at hlt hnow ⊢
  exact ⟨by omega, htodo, by omega⟩

/-- A poll that ends, with the turns after it, or one that goes on. -/
theorem run_poll_to_end_or_again {s : State} {d1 d2 d3 : Draw} {ds : List Draw} (hm : s.AddrMapOk)
    (hd1 : d1.fate = .completes) (ha : s.agenda = (d1 :: d2 :: d3 :: ds).map Turn.host) (ht : s.host.todo = pollSeq) :
    (∃ t, Reaches (ds.length + 3) s t ∧ PollEnded t.host) ∨
      ∃ t, Reaches 3 s t ∧ t.agenda = ds.map Turn.host ∧ t.params = s.params ∧ t.host.deadline = s.host.deadline ∧
        s.host.now < s.host.deadline ∧ t.host.todo = pollSeq ∧ s.host.now + s.params.pollMs ≤ t.host.now := by
  obtain ⟨t, hrun, hagenda, hparams, hdeadline, hended | hagain⟩ := run_poll hm hd1 ha ht
  · obtain ⟨u, hrest, hu⟩ := pollEnded_stays ds hended hagenda
    exact .inl ⟨u, hrun.trans hrest, hu⟩
  · exact .inr ⟨t, hrun, hagenda, hparams, hdeadline, hagain⟩

/-- With the deadline at most `n` poll intervals away, `n + 1` polls end it: the last of them finds the deadline
reached. -/
theorem poll_ends (n : Nat) {s : State} {ds : List Draw} (hm : s.AddrMapOk) (hds : ∀ d ∈ ds, d.fate = .completes)
    (hlen : ds.length = 3 * (n + 1)) (ha : s.agenda = ds.map Turn.host) (ht : s.host.todo = pollSeq)
    (hdead : s.host.deadline ≤ s.host.now + n * s.params.pollMs) :
    ∃ t, Reaches (3 * (n + 1)) s t ∧ PollEnded t.host := by
  induction n generalizing s ds with
  | zero =>
    obtain ⟨d1, d2, d3, rfl⟩ := List.length_eq_three.1 hlen
    obtain hended | ⟨t, -, -, -, -, hlt, -⟩ := run_poll_to_end_or_again hm (hds d1 (by simp)) ha ht
    · exact hended
    · omega
  | succ n ih =>
    obtain ⟨d1, d2, d3, ds, rfl⟩ : ∃ d1 d2 d3 ds', ds = d1 :: d2 :: d3 :: ds' := by
      match ds, hlen with
      | d1 :: d2 :: d3 :: ds', _ => exact ⟨d1, d2, d3, ds', rfl⟩
    obtain ⟨t, hrun, ht⟩ | ⟨t, hrun, hagenda, hparams, hdeadline, -, htodo, hnow⟩ :=
      run_poll_to_end_or_again hm (hds d1 (by simp)) ha ht
    · exact ⟨t, hlen ▸ hrun, ht⟩
    · have hm' : t.AddrMapOk := by rwa [State.AddrMapOk, hparams]
      have hlen' : ds.length = 3 * (n + 1) := by
        simp only [List.length_cons] at hlen
        omega
      have hdead' : t.host.deadline ≤ t.host.now + n * t.params.pollMs := by
        rw [hdeadline, hparams]
        rw [Nat.succ_mul] at hdead
        omega
      obtain ⟨u, hrest, hu⟩ := ih hm' (fun d hd => hds d (by simp [hd])) hlen' hagenda htodo hdead'
      exact ⟨u, hrun.trans hrest, hu⟩

/-- Settles O57: the verdict of a poll that has ended. -/
theorem softResetPollEnds : Obligations.SoftResetPollEnds := by
  intro n s ds hm hds hlen ha ht _ hdead
  obtain ⟨t, hrun, -, hverdict⟩ := poll_ends n hm hds hlen ha ht hdead
  exact ⟨t, hrun.run, hverdict⟩

end Sys2Proof.Machine
